-- ==== Sys2Proof/Word.lean ====
section
/-! DEFINITION. The value types every layer uses: bytes, bus words and byte arrays.
A byte array of length n is indexed from 0 (spec/00_scope.md R12). -/
namespace Sys2Proof

/-- A field element, a table entry, one byte of a register (00_scope R8, R11: unsigned). -/
abbrev Byte := BitVec 8

/-- A 32-bit value of the data bus, and a command word (00_scope R9, 30_encoding R90). -/
abbrev BusWord := BitVec 32

/-- A byte array `X[0] .. X[n-1]` (00_scope R12). -/
abbrev Bytes (n : Nat) := Vector Byte n

/-- A 16-byte state or round key: byte k is row `k mod 4`, column `k / 4` (00_scope R13). -/
abbrev Block := Bytes 16

/-- A key-schedule word `[w0, w1, w2, w3]`, its first byte first (00_scope R14). -/
abbrev Word := Bytes 4

end Sys2Proof
end

