-- ==== Sys2Proof/Config.lean ====
section
/-! DEFINITION. What the platform fixes and the spec leaves OPEN (00_scope R9, 10_state R55). Both constants
have no body, so nothing can be proved of their value: a claim about them holds for every platform. -/
namespace Sys2Proof

/-- Which 4096-byte page of the host address space holds the block's window. OPEN: the platform chooses
(20_memory R60, 92_eei_decisions D2; log 6). -/
opaque Config.windowPage : Nat

/-- `BASE`, "4096-byte aligned" by construction (00_scope R9, 20_memory R60; log 6). -/
def Config.base : Nat := 4096 * Config.windowPage

/-- `LAT`: how many bus-clock cycles a CMD write is held. OPEN: it may depend only on the opcode, on NK, on
CTRL.TRACE_EN and on the error code reported (70_reset R271, R272; log 7). -/
opaque Config.lat (opcode : Byte) (nk : BitVec 4) (traceEn : Bool) (err : BitVec 4) : Nat

end Sys2Proof
end

