-- ==== Sys2Proof/Syntax.lean ====
section
/-! DEFINITION. The nineteen commands of spec/opcode_table.json (30_encoding R92), the block's instructions
(00_scope R18 "Commands play the part of instructions"). -/
namespace Sys2Proof

/-- One constructor per row of the opcode map. Only ADDRK_FWD and ADDRK_EQI carry an operand, the
round-key index ROUND (30_encoding R93); every other operand is a fixed register. -/
inductive Instr where
  /-- NOP, 0x00 (45_housekeeping R220). -/
  | nop
  /-- GF_ADD, 0x01 (40_gf_arith R113). -/
  | gfAdd
  /-- GF_XTIME, 0x02 (40_gf_arith R114). -/
  | gfXtime
  /-- GF_MUL, 0x03 (40_gf_arith R115). -/
  | gfMul
  /-- SBOX, 0x08 (41_sbox R132). -/
  | sbox
  /-- INVSBOX, 0x09 (41_sbox R133). -/
  | invSbox
  /-- SUBBYTES, 0x10 (42_round_transforms R150). -/
  | subBytes
  /-- INVSUBBYTES, 0x11 (42_round_transforms R151). -/
  | invSubBytes
  /-- SHIFTROWS, 0x12 (42_round_transforms R152). -/
  | shiftRows
  /-- INVSHIFTROWS, 0x13 (42_round_transforms R153). -/
  | invShiftRows
  /-- MIXCOLUMNS, 0x14 (42_round_transforms R154). -/
  | mixColumns
  /-- INVMIXCOLUMNS, 0x15 (42_round_transforms R155). -/
  | invMixColumns
  /-- ADDRK, 0x16 (42_round_transforms R156). -/
  | addRk
  /-- ADDRK_FWD r, 0x17 (42_round_transforms R157). -/
  | addRkFwd (round : Nat)
  /-- ADDRK_EQI r, 0x18 (42_round_transforms R158). -/
  | addRkEqi (round : Nat)
  /-- LOAD_KEY, 0x20 (43_key_schedule R180). -/
  | loadKey
  /-- CIPHER, 0x30 (44_cipher_engines R195). -/
  | cipher
  /-- INVCIPHER, 0x31 (44_cipher_engines R196). -/
  | invCipher
  /-- EQINVCIPHER, 0x32 (44_cipher_engines R197). -/
  | eqInvCipher
deriving DecidableEq, Repr

/-- The ROUND field the command word of `i` holds: 0 in every command that does not use it (30_encoding R91). -/
def Instr.roundField : Instr → Nat
  | .nop | .gfAdd | .gfXtime | .gfMul | .sbox | .invSbox => 0
  | .subBytes | .invSubBytes | .shiftRows | .invShiftRows | .mixColumns | .invMixColumns | .addRk => 0
  | .addRkFwd round => round
  | .addRkEqi round => round
  | .loadKey | .cipher | .invCipher | .eqInvCipher => 0

end Sys2Proof
end

