-- ==== Sys2Proof/WellFormed.lean ====
section
/-! DEFINITION. Which terms of `Instr` stand for a command word: the round index fits the 8-bit ROUND field
(30_encoding R91, R93, R96). A round index past STATUS.NR is a legal encoding, and is no matter of this check. -/
namespace Sys2Proof

/-- "ROUND is an unsigned 8-bit number" (30_encoding R93). -/
def Instr.wellFormed (i : Instr) : Bool := decide (i.roundField < 256)

end Sys2Proof
end

