-- ==== Sys2Proof/Decode.lean ====
section
/-! DEFINITION. The decoder of format C, total on every command word and every byte sequence, rejecting by
name (30_encoding R90 to R97), and after it the encoder written from the same opcode map. -/
namespace Sys2Proof

/-- OPCODE, `v[7:0]` (30_encoding R91). -/
def fieldOpcode (v : BusWord) : Byte := v.extractLsb' 0 8
/-- ROUND, `v[15:8]` (30_encoding R91). -/
def fieldRound (v : BusWord) : Byte := v.extractLsb' 8 8
/-- RSV, `v[31:16]` (30_encoding R91). -/
def fieldRsv (v : BusWord) : BitVec 16 := v.extractLsb' 16 16

/-- Why the decoder rejects: the three causes of ILLEGAL (60_exceptions R232), and a byte sequence that is no
command word because a command "has exactly one length, 32 bits" (30_encoding R90; log 12). -/
inductive DecodeReject where
  /-- OPCODE is not assigned in 30_encoding R92. -/
  | unassignedOpcode
  /-- `v[31:16] != 0`. -/
  | reservedNonzero
  /-- `v[15:8] != 0` on a command that does not use ROUND. -/
  | unusedRoundNonzero
  /-- Not four bytes. -/
  | notOneWord
deriving DecidableEq, Repr

/-- The opcode map (30_encoding R92). Every value not listed is unassigned (R95). -/
def instrOfOpcode (op : Byte) (round : Nat) : Option Instr :=
  match op.toNat with
  | 0x00 => some .nop
  | 0x01 => some .gfAdd
  | 0x02 => some .gfXtime
  | 0x03 => some .gfMul
  | 0x08 => some .sbox
  | 0x09 => some .invSbox
  | 0x10 => some .subBytes
  | 0x11 => some .invSubBytes
  | 0x12 => some .shiftRows
  | 0x13 => some .invShiftRows
  | 0x14 => some .mixColumns
  | 0x15 => some .invMixColumns
  | 0x16 => some .addRk
  | 0x17 => some (.addRkFwd round)
  | 0x18 => some (.addRkEqi round)
  | 0x20 => some .loadKey
  | 0x30 => some .cipher
  | 0x31 => some .invCipher
  | 0x32 => some .eqInvCipher
  | _ => none

/-- Whether the command uses ROUND: ADDRK_FWD and ADDRK_EQI only (30_encoding R91, R92). -/
def Instr.usesRound : Instr → Bool
  | .addRkFwd _ | .addRkEqi _ => true
  | .nop | .gfAdd | .gfXtime | .gfMul | .sbox | .invSbox => false
  | .subBytes | .invSubBytes | .shiftRows | .invShiftRows | .mixColumns | .invMixColumns | .addRk => false
  | .loadKey | .cipher | .invCipher | .eqInvCipher => false

/-- Decodes a command word: a bad opcode first, then a nonzero RSV, then a nonzero unused ROUND (the order of
60_exceptions R238, point 2). No mode bit takes part (30_encoding R97). -/
def decode (v : BusWord) : Except DecodeReject Instr :=
  match instrOfOpcode (fieldOpcode v) (fieldRound v).toNat with
  | none => .error .unassignedOpcode
  | some i =>
    if fieldRsv v ≠ 0 then .error .reservedNonzero
    else if fieldRound v ≠ 0 ∧ i.usesRound = false then .error .unusedRoundNonzero
    else .ok i

/-- The command word whose byte at offset `0x004 + j` is `b_j`: little-endian lanes, so OPCODE is the byte at
0x004 (20_memory R64). -/
def wordOfLanes (b0 b1 b2 b3 : Byte) : BusWord := b3 ++ b2 ++ b1 ++ b0

/-- Decodes any byte sequence: four bytes are one command word, anything else is none (30_encoding R90). -/
def decodeBytes : List Byte → Except DecodeReject Instr
  | [b0, b1, b2, b3] => decode (wordOfLanes b0 b1 b2 b3)
  | _ => .error .notOneWord

/-- The four lanes of a 32-bit value, the byte of the lowest offset first (20_memory R64). -/
def lanesOfWord (v : BusWord) : List Byte :=
  [v.extractLsb' 0 8, v.extractLsb' 8 8, v.extractLsb' 16 8, v.extractLsb' 24 8]

/-- The command word that the opcode table's numbering calls `w` in its low `nbits` bits, the rest zero. -/
def tableWord (nbits w : Nat) : BusWord := BitVec.ofNat 32 (w % 2 ^ nbits)

/-- The instruction the decoder reads from a table word, laid out in its byte lanes. -/
def decodeTableWord (nbits w : Nat) : Option Instr :=
  match decodeBytes (lanesOfWord (tableWord nbits w)) with
  | .ok i => some i
  | .error _ => none

/-- OPCODE of each command (30_encoding R92). -/
def Instr.opcode : Instr → Byte
  | .nop => 0x00#8
  | .gfAdd => 0x01#8
  | .gfXtime => 0x02#8
  | .gfMul => 0x03#8
  | .sbox => 0x08#8
  | .invSbox => 0x09#8
  | .subBytes => 0x10#8
  | .invSubBytes => 0x11#8
  | .shiftRows => 0x12#8
  | .invShiftRows => 0x13#8
  | .mixColumns => 0x14#8
  | .invMixColumns => 0x15#8
  | .addRk => 0x16#8
  | .addRkFwd _ => 0x17#8
  | .addRkEqi _ => 0x18#8
  | .loadKey => 0x20#8
  | .cipher => 0x30#8
  | .invCipher => 0x31#8
  | .eqInvCipher => 0x32#8

/-- The command word of `i`: `0000000000000000 RRRRRRRR OOOOOOOO` (30_encoding R91, R96). -/
def encode (i : Instr) : BusWord := 0#16 ++ BitVec.ofNat 8 i.roundField ++ i.opcode

end Sys2Proof
end

