-- ==== Sys2Proof/Machine/State.lean ====
section
/-! DEFINITION. The architectural state of the block (10_state R30), the events the outside sends it, its bus
responses, the reasons a step could stop, and the state after reset (10_state R54). -/
namespace Sys2Proof.Machine

/-- STATUS.ERR, the result code of the most recent command (60_exceptions R230). Codes 6 to 15 "are never
produced" (10_state R37), so they have no constructor (log 9). -/
inductive ErrCode where
  /-- 0: the command succeeded. -/
  | ok
  /-- 1: CTRL.KEYLEN not in 16, 24, 32 (R234). -/
  | config
  /-- 2: CTRL.BO = 1 (R233). -/
  | platform
  /-- 3: STATUS.KEYED = 0 (R235). -/
  | noKey
  /-- 4: an illegal command word (R232). -/
  | illegal
  /-- 5: ROUND > STATUS.NR (R236). -/
  | operand
deriving DecidableEq, Repr

/-- CTRL (10_state R32). The reserved bits read 0 and ignore writes, so none is stored. -/
structure Ctrl where
  /-- Bit 0: the trace stream is enabled (R33). -/
  traceEn : Bool
  /-- Bit 1: the byte-order model asked for, 1 unsupported (R34). -/
  bo : Bool
  /-- Bits 15:8: cipher key length in bytes (R35). -/
  keylen : Byte
deriving DecidableEq, Repr

/-- STATUS (10_state R37). -/
structure Status where
  /-- Bits 3:0 (R38). -/
  err : ErrCode
  /-- Bit 8: valid schedules are present (R39). -/
  keyed : Bool
  /-- Bits 19:16 (R40). -/
  nk : BitVec 4
  /-- Bits 27:24 (R40). -/
  nr : BitVec 4
deriving DecidableEq, Repr

/-- GFOP, the operands of the GF and S-box commands (10_state R41). -/
structure Gfop where
  /-- Bits 7:0. -/
  a : Byte
  /-- Bits 15:8. -/
  b : Byte
deriving DecidableEq, Repr

/-- STEP of a trace record (44_cipher_engines R199); code 7 is never emitted. -/
inductive TraceStep where
  /-- 0: AddRoundKey. -/
  | ark
  /-- 1: SubBytes. -/
  | sb
  /-- 2: ShiftRows. -/
  | sr
  /-- 3: MixColumns. -/
  | mc
  /-- 4: InvSubBytes. -/
  | isb
  /-- 5: InvShiftRows. -/
  | isr
  /-- 6: InvMixColumns. -/
  | imc
deriving DecidableEq, Repr

/-- ENGINE of a trace record (44_cipher_engines R199); code 3 is never emitted. -/
inductive Engine where
  /-- 0: CIPHER. -/
  | cipher
  /-- 1: INVCIPHER. -/
  | invCipher
  /-- 2: EQINVCIPHER. -/
  | eqInvCipher
deriving DecidableEq, Repr

/-- A trace record `(ENGINE, round, step, s)` (44_cipher_engines R198, R199). -/
structure TraceRecord where
  engine : Engine
  /-- TAG[3:0]. -/
  round : BitVec 4
  step : TraceStep
  /-- The state after the step. -/
  data : Block
deriving DecidableEq, Repr

/-- Which condition of the first check an access breaks. R66 and R67 raise BusError(misaligned) for both; R68 and
60_exceptions R237 list the two apart (log 4). -/
inductive MisalignedCause where
  /-- The size is not 1, 2 or 4 bytes: R68's "unsupported size". -/
  | unsupportedSize
  /-- The offset is no multiple of the size: R68's "misaligned". -/
  | offset
deriving DecidableEq, Repr

/-- Why a bus access ends with an error response (20_memory R68, R237). A bus error is a fault of the ACCESS:
`step` records it as the access's response and the block goes on ("A bus error ends an access; it does not stop
the block", 70_reset R273), so no step of the machine ends in one (log 3). -/
inductive Fault where
  /-- BusError(misaligned), raised by `busRead` and `busWrite` when the size is not 1, 2 or 4 bytes or the offset is no
  multiple of it (R66, R67), with which of the two it was (log 4). Safe: no effect. -/
  | misaligned (cause : MisalignedCause)
  /-- Raised by `busRead` and `busWrite` when a byte touched is unmapped (R63). Safe: no effect. -/
  | unmapped
  /-- Raised by `busWrite` on an 8-bit or 16-bit write to CMD (R69). Safe: no effect. -/
  | subwordCmd
deriving DecidableEq, Repr

/-- Why a step could be refused. -/
inductive Refusal where
  /-- Would be raised by a refused arm of `exec`, for a command without a meaning; safe. No arm raises it: every
  command has its meaning. -/
  | notModelled (mnemonic : String)
deriving DecidableEq, Repr

/-- What the outside does to the block, one event at a time (20_memory R73, 70_reset R260; log 1). Offsets have 12
bits (R60). A size may be any number; the block answers a bad one with a bus error (R66). A write moves its `n` low
lanes of the 32-bit data bus (log 10). -/
inductive BusEvent where
  /-- A host read of `n` bytes at offset `off`. -/
  | read (off : BitVec 12) (n : Nat)
  /-- A host write of the low `8n` bits of `v` at offset `off`. -/
  | write (off : BitVec 12) (n : Nat) (v : BusWord)
  /-- A pulse of the reset input, between accesses. -/
  | reset
deriving DecidableEq, Repr

/-- The answer to one access (log 2). -/
inductive Response where
  /-- A read of `n` bytes returned `v`, zero-extended to the bus width (R66). -/
  | data (n : Nat) (v : BusWord)
  /-- A write was done; for a CMD write, "given only after the command has finished" (R75). -/
  | written
  /-- An error response (R68). -/
  | error (reason : Fault)
deriving DecidableEq, Repr

/-- A byte memory: cells in strictly rising order of index, none holding what an unlisted index reads as (log 8). -/
abbrev Memory := List Host.Cell

/-- The block's state (10_state R30), and the two lists through which the outside meets it (logs 1 and 2). -/
structure State where
  /-- CTRL, R32. -/
  ctrl : Ctrl
  /-- STATUS, R37. -/
  status : Status
  /-- GFOP, R41. -/
  gfop : Gfop
  /-- GFRES.R, R42. -/
  gfres : Byte
  /-- STATE, R43: byte k at offset 0x020 + k. -/
  state : Block
  /-- RKIN, R44: byte k at offset 0x030 + k. -/
  rkin : Block
  /-- KEY, R45: byte k at offset 0x040 + k. -/
  key : Bytes 32
  /-- W, R46: 240 bytes, indices 0 to 239. -/
  w : Memory
  /-- DW, R47: 240 bytes, indices 0 to 239. -/
  dw : Memory
  /-- TRACE, R51: oldest record first. -/
  trace : List TraceRecord
  /-- The model's own: the events the outside sends next, oldest first (log 1). -/
  pending : List BusEvent
  /-- The model's own: the responses given so far, oldest first (log 2). -/
  responses : List Response
deriving DecidableEq, Repr

/-- The outcome of a command, an access or a step. -/
abbrev Result := Host.Outcome State Fault Refusal

/-- The state after reset (10_state R54): "all zeros, KEYED = 0 and TRACE empty" (70_reset R260). Nothing is pending
and nothing has been answered (logs 1 and 2). -/
def State.reset : State where
  ctrl := { traceEn := false, bo := false, keylen := 0x00#8 }
  status := { err := .ok, keyed := false, nk := 0#4, nr := 0#4 }
  gfop := { a := 0x00#8, b := 0x00#8 }
  gfres := 0x00#8
  state := Vector.replicate 16 0x00#8
  rkin := Vector.replicate 16 0x00#8
  key := Vector.replicate 32 0x00#8
  w := []
  dw := []
  trace := []
  pending := []
  responses := []

end Sys2Proof.Machine
end

