-- ==== Sys2Proof/Machine/Ops.lean ====
section
/-! DEFINITION. The shared operations: byte memories, byte arrays, register updates, and how a command ends.
`fail` is the block's one exceptional ending (60_exceptions R231): "The block takes no trap. An error does not save
state, change a mode, switch a stack or transfer control" (R241), and "There is no trap return" (R242), so there is
no return operation beside it. -/
namespace Sys2Proof.Machine

/-! ### Byte memories -/

/-- What an index with no cell reads as: 0x00, the schedule memories' reset contents and tail value
(10_state R46, R47, R54; log 8). -/
def Memory.unlisted : Byte := 0x00#8

/-- The byte at index `x`. -/
def Memory.read : Memory → Nat → Byte
  | [], _ => Memory.unlisted
  | (a, b) :: m, x => if a = x then b else Memory.read m x

/-- Sets the byte at index `x`. Writing the unlisted value removes the cell. -/
def Memory.write : Memory → Nat → Byte → Memory
  | [], x, b => if b = Memory.unlisted then [] else [(x, b)]
  | (a, c) :: m, x, b =>
    if x < a then
      if b = Memory.unlisted then (a, c) :: m else (x, b) :: (a, c) :: m
    else if x = a then
      if b = Memory.unlisted then m else (x, b) :: m
    else (a, c) :: Memory.write m x b

/-- Writes consecutive bytes from index `x` up. -/
def Memory.writeFrom : Memory → Nat → List Byte → Memory
  | m, _, [] => m
  | m, x, b :: bs => Memory.writeFrom (Memory.write m x b) (x + 1) bs

/-- Every byte 0x00 (the state after reset and after CONFIG, 60_exceptions R234). -/
def Memory.cleared : Memory := []

/-- The memory that holds `bytes` from index 0 and 0x00 past them: LOAD_KEY's writes of a schedule and of its zero
tail (43_key_schedule R180). -/
def Memory.fill (bytes : List Byte) : Memory := Memory.writeFrom Memory.cleared 0 bytes

/-- The canonical form: indices strictly rising, no cell that holds the unlisted value. -/
abbrev Memory.wf (m : Memory) : Prop :=
  m.Pairwise (fun p q => p.1 < q.1) ∧ ∀ c ∈ m, c.2 ≠ Memory.unlisted

/-! ### Byte arrays -/

/-- The array whose hex string, its first byte first, is the `2n`-digit number `x` (00_scope R12). -/
def bytesOfHex (n : Nat) (x : Nat) : Bytes n := Vector.ofFn fun k => BitVec.ofNat 8 (x >>> (8 * (n - 1 - k.val)))

/-- Bytewise `^` (00_scope R11). -/
def xorBytes {n : Nat} (x y : Bytes n) : Bytes n := Vector.ofFn fun k => x[k] ^^^ y[k]

/-- The byte array whose byte k is `f (x[k])`. -/
def mapBytes {n : Nat} (f : Byte → Byte) (x : Bytes n) : Bytes n := Vector.ofFn fun k => f x[k]

/-! ### Register updates -/

/-- `STATUS.ERR <- e`. -/
def State.setErr (s : State) (e : ErrCode) : State := { s with status := { s.status with err := e } }

/-- `GFRES.R <- r`. -/
def State.setR (s : State) (r : Byte) : State := { s with gfres := r }

/-- `STATE <- x`. -/
def State.setState (s : State) (x : Block) : State := { s with state := x }

/-- `STATUS.KEYED`, `STATUS.NK`, `STATUS.NR`, W and DW, which only LOAD_KEY writes (43_key_schedule R181). -/
def State.setSchedules (s : State) (keyed : Bool) (nk nr : BitVec 4) (w dw : Memory) : State :=
  { s with status := { s.status with keyed := keyed, nk := nk, nr := nr }, w := w, dw := dw }

/-- The event at the head of `pending` taken off. -/
def State.setPending (s : State) (p : List BusEvent) : State := { s with pending := p }

/-- The bus response `r` given (20_memory R75). -/
def State.respond (s : State) (r : Response) : State := { s with responses := s.responses ++ [r] }

/-! ### How a command ends, and its checks -/

/-- `fail e` (00_scope R15, 60_exceptions R231): ERR gets the code and nothing else changes. -/
def fail (e : ErrCode) (s : State) : Result := .next (s.setErr e)

/-- `done` (00_scope R15): "It sets STATUS.ERR <- OK". -/
def done (s : State) : Result := .next (s.setErr .ok)

/-- The check every command makes first: `if CTRL.BO = 1: fail PLATFORM` (30_encoding R94, 60_exceptions R233). -/
def command (body : State → Result) (s : State) : Result := if s.ctrl.bo then fail .platform s else body s

/-- A schedule-dependent command: PLATFORM first, then NO_KEY while KEYED = 0 (30_encoding R94, 60_exceptions R235). -/
def keyedCommand (body : State → Result) (s : State) : Result :=
  command (fun s => if s.status.keyed then body s else fail .noKey s) s

/-- A command that uses ROUND: after NO_KEY, `rnd > STATUS.NR` compared unsigned fails with OPERAND
(30_encoding R93, R94, 60_exceptions R236). -/
def roundCommand (round : Nat) (body : State → Result) (s : State) : Result :=
  keyedCommand (fun s => if s.status.nr.toNat < round then fail .operand s else body s) s

end Sys2Proof.Machine
end

