-- ==== Sys2Proof/Machine/GfArith.lean ====
section
/-! DEFINITION. The GF(2^8) byte arithmetic unit and its three commands (spec/40_gf_arith.md). -/
namespace Sys2Proof.Machine

/-- Field addition (40_gf_arith R110). -/
def gfAdd (a b : Byte) : Byte := a ^^^ b

/-- Doubling: shift left, drop bit 8, and fold it back as 0x1B (40_gf_arith R111). -/
def xtime (b : Byte) : Byte := if b.getLsbD 7 then gfAdd (b <<< 1) 0x1B#8 else b <<< 1

/-- One pass of the loop of `gfMul` for bit `i` of `a`: the running sum `p`, then the doubled `b`. -/
def gfMulStep (a : Byte) (pb : Byte × Byte) (i : Nat) : Byte × Byte :=
  (if a.getLsbD i then gfAdd pb.1 pb.2 else pb.1, xtime pb.2)

/-- Field multiplication: the eight passes, low bit of `a` first (40_gf_arith R112). -/
def gfMul (a b : Byte) : Byte := ((List.range 8).foldl (gfMulStep a) (0x00#8, b)).1

/-- GF_ADD: `GFRES.R <- gfAdd(GFOP.A, GFOP.B); done` (40_gf_arith R113). -/
def execGfAdd (s : State) : Result := command (fun s => done (s.setR (gfAdd s.gfop.a s.gfop.b))) s

/-- GF_XTIME: `GFRES.R <- xtime(GFOP.A); done` (40_gf_arith R114). -/
def execGfXtime (s : State) : Result := command (fun s => done (s.setR (xtime s.gfop.a))) s

/-- GF_MUL: `GFRES.R <- gfMul(GFOP.A, GFOP.B); done` (40_gf_arith R115). -/
def execGfMul (s : State) : Result := command (fun s => done (s.setR (gfMul s.gfop.a s.gfop.b))) s

end Sys2Proof.Machine
end

