-- ==== Sys2Proof/Machine/Operands.lean ====
section
/-! DEFINITION. The operands of the commands. Each is a fixed register, or a round key that ROUND selects
(30_encoding R93). -/
namespace Sys2Proof.Machine

/-- The 16 bytes `m[16r .. 16r+15]` (10_state R46, R47; 30_encoding R93). -/
def roundKeyOf (m : Memory) (r : Nat) : Block := Vector.ofFn fun k => Memory.read m (16 * r + k.val)

/-- `RK[r]`, round key r of W (10_state R46). -/
def State.roundKeyFwd (s : State) (r : Nat) : Block := roundKeyOf s.w r

/-- `DK[r]`, round key r of DW (10_state R47). -/
def State.roundKeyEqi (s : State) (r : Nat) : Block := roundKeyOf s.dw r

/-- STATUS.NR as a number: the trip count of the engines and the bound of ROUND (30_encoding R93). -/
def State.numRounds (s : State) : Nat := s.status.nr.toNat

/-- Key bytes `KEY[0 .. n-1]`, for `n` up to 32 (10_state R45: "It ignores bytes KEYLEN .. 31"). -/
def State.keyPrefix (s : State) (n : Nat) (h : n ≤ 32) : Bytes n := Vector.ofFn fun k => s.key[k.val]

end Sys2Proof.Machine
end

