-- ==== Sys2Proof/Machine/SboxUnit.lean ====
section
/-! DEFINITION. The S-box and inverse S-box tables and their two commands (spec/41_sbox.md). The entries are the
spec's own tables, which it marks as supplied from general knowledge (93_implementation_defined G1; log 11). -/
namespace Sys2Proof.Machine

/-- The rows of `SBox`: row h is `SBox[16h .. 16h+15]` (41_sbox R130). -/
def sboxRows : Vector (Bytes 16) 16 := #v[
  bytesOfHex 16 0x637c777bf26b6fc53001672bfed7ab76,
  bytesOfHex 16 0xca82c97dfa5947f0add4a2af9ca472c0,
  bytesOfHex 16 0xb7fd9326363ff7cc34a5e5f171d83115,
  bytesOfHex 16 0x04c723c31896059a071280e2eb27b275,
  bytesOfHex 16 0x09832c1a1b6e5aa0523bd6b329e32f84,
  bytesOfHex 16 0x53d100ed20fcb15b6acbbe394a4c58cf,
  bytesOfHex 16 0xd0efaafb434d338545f9027f503c9fa8,
  bytesOfHex 16 0x51a3408f929d38f5bcb6da2110fff3d2,
  bytesOfHex 16 0xcd0c13ec5f974417c4a77e3d645d1973,
  bytesOfHex 16 0x60814fdc222a908846eeb814de5e0bdb,
  bytesOfHex 16 0xe0323a0a4906245cc2d3ac629195e479,
  bytesOfHex 16 0xe7c8376d8dd54ea96c56f4ea657aae08,
  bytesOfHex 16 0xba78252e1ca6b4c6e8dd741f4bbd8b8a,
  bytesOfHex 16 0x703eb5664803f60e613557b986c11d9e,
  bytesOfHex 16 0xe1f8981169d98e949b1e87e9ce5528df,
  bytesOfHex 16 0x8ca1890dbfe6426841992d0fb054bb16]

/-- The rows of `InvSBox` (41_sbox R131). -/
def invSboxRows : Vector (Bytes 16) 16 := #v[
  bytesOfHex 16 0x52096ad53036a538bf40a39e81f3d7fb,
  bytesOfHex 16 0x7ce339829b2fff87348e4344c4dee9cb,
  bytesOfHex 16 0x547b9432a6c2233dee4c950b42fac34e,
  bytesOfHex 16 0x082ea16628d924b2765ba2496d8bd125,
  bytesOfHex 16 0x72f8f66486689816d4a45ccc5d65b692,
  bytesOfHex 16 0x6c704850fdedb9da5e154657a78d9d84,
  bytesOfHex 16 0x90d8ab008cbcd30af7e45805b8b34506,
  bytesOfHex 16 0xd02c1e8fca3f0f02c1afbd0301138a6b,
  bytesOfHex 16 0x3a9111414f67dcea97f2cfcef0b4e673,
  bytesOfHex 16 0x96ac7422e7ad3585e2f937e81c75df6e,
  bytesOfHex 16 0x47f11a711d29c5896fb7620eaa18be1b,
  bytesOfHex 16 0xfc563e4bc6d279209adbc0fe78cd5af4,
  bytesOfHex 16 0x1fdda8338807c731b11210592780ec5f,
  bytesOfHex 16 0x60517fa919b54a0d2de57a9f93c99cef,
  bytesOfHex 16 0xa0e03b4dae2af5b0c8ebbb3c83539961,
  bytesOfHex 16 0x172b047eba77d626e169146355210c7d]

/-- The entry in row `b[7:4]` and column `b[3:0]` (41_sbox R130). -/
def tableEntry (rows : Vector (Bytes 16) 16) (b : Byte) : Byte := rows[b.toNat / 16][b.toNat % 16]

/-- `SBox[b]` (41_sbox R130). -/
def sbox (b : Byte) : Byte := tableEntry sboxRows b

/-- `InvSBox[b]` (41_sbox R131). -/
def invSbox (b : Byte) : Byte := tableEntry invSboxRows b

/-- SBOX: `GFRES.R <- SBox[GFOP.A]; done` (41_sbox R132). -/
def execSbox (s : State) : Result := command (fun s => done (s.setR (sbox s.gfop.a))) s

/-- INVSBOX: `GFRES.R <- InvSBox[GFOP.A]; done` (41_sbox R133). -/
def execInvSbox (s : State) : Result := command (fun s => done (s.setR (invSbox s.gfop.a))) s

end Sys2Proof.Machine
end

