-- ==== Sys2Proof/Machine/RoundTransforms.lean ====
section
/-! DEFINITION. The round transformations as functions on states, and the nine commands that apply them to the STATE
register (spec/42_round_transforms.md). Byte k of a state is row `k mod 4`, column `k / 4` (00_scope R13). -/
namespace Sys2Proof.Machine

/-- SubBytes (42_round_transforms R140). -/
def subBytes (s : Block) : Block := mapBytes sbox s

/-- InvSubBytes (42_round_transforms R141). -/
def invSubBytes (s : Block) : Block := mapBytes invSbox s

/-- ShiftRows: `s'[r + 4c] = s[r + 4*((c + r) mod 4)]` (42_round_transforms R142). -/
def shiftRows (s : Block) : Block :=
  Vector.ofFn fun k => s[k.val % 4 + 4 * ((k.val / 4 + k.val % 4) % 4)]

/-- InvShiftRows: `s'[r + 4c] = s[r + 4*((c + 4 - r) mod 4)]` (42_round_transforms R143). -/
def invShiftRows (s : Block) : Block :=
  Vector.ofFn fun k => s[k.val % 4 + 4 * ((k.val / 4 + 4 - k.val % 4) % 4)]

/-- The matrix M (42_round_transforms R144). -/
def mixMatrix : Vector (Bytes 4) 4 := #v[
  #v[0x02, 0x03, 0x01, 0x01],
  #v[0x01, 0x02, 0x03, 0x01],
  #v[0x01, 0x01, 0x02, 0x03],
  #v[0x03, 0x01, 0x01, 0x02]]

/-- The matrix IM (42_round_transforms R145). -/
def invMixMatrix : Vector (Bytes 4) 4 := #v[
  #v[0x0E, 0x0B, 0x0D, 0x09],
  #v[0x09, 0x0E, 0x0B, 0x0D],
  #v[0x0D, 0x09, 0x0E, 0x0B],
  #v[0x0B, 0x0D, 0x09, 0x0E]]

/-- Row `row` of a matrix times column `c` of the state: `gfMul(M[r][j], s[j + 4c])` added over j = 0..3. -/
def mixByte (row : Bytes 4) (s : Block) (c : Nat) (h : c < 4) : Byte :=
  gfAdd (gfAdd (gfMul row[0] s[4 * c]) (gfMul row[1] s[1 + 4 * c]))
    (gfAdd (gfMul row[2] s[2 + 4 * c]) (gfMul row[3] s[3 + 4 * c]))

/-- Every column replaced by the matrix product (42_round_transforms R144). -/
def mixWith (m : Vector (Bytes 4) 4) (s : Block) : Block :=
  Vector.ofFn fun k => mixByte m[k.val % 4] s (k.val / 4) (by omega)

/-- MixColumns (42_round_transforms R144). -/
def mixColumns (s : Block) : Block := mixWith mixMatrix s

/-- InvMixColumns (42_round_transforms R145). -/
def invMixColumns (s : Block) : Block := mixWith invMixMatrix s

/-- AddRoundKey (42_round_transforms R146). -/
def addRoundKey (s k : Block) : Block := xorBytes s k

/-- SUBBYTES: `STATE <- SubBytes(STATE); done` (42_round_transforms R150). -/
def execSubBytes (s : State) : Result := command (fun s => done (s.setState (subBytes s.state))) s

/-- INVSUBBYTES: `STATE <- InvSubBytes(STATE); done` (42_round_transforms R151). -/
def execInvSubBytes (s : State) : Result := command (fun s => done (s.setState (invSubBytes s.state))) s

/-- SHIFTROWS: `STATE <- ShiftRows(STATE); done` (42_round_transforms R152). -/
def execShiftRows (s : State) : Result := command (fun s => done (s.setState (shiftRows s.state))) s

/-- INVSHIFTROWS: `STATE <- InvShiftRows(STATE); done` (42_round_transforms R153). -/
def execInvShiftRows (s : State) : Result := command (fun s => done (s.setState (invShiftRows s.state))) s

/-- MIXCOLUMNS: `STATE <- MixColumns(STATE); done` (42_round_transforms R154). -/
def execMixColumns (s : State) : Result := command (fun s => done (s.setState (mixColumns s.state))) s

/-- INVMIXCOLUMNS: `STATE <- InvMixColumns(STATE); done` (42_round_transforms R155). -/
def execInvMixColumns (s : State) : Result := command (fun s => done (s.setState (invMixColumns s.state))) s

/-- ADDRK: `STATE <- AddRoundKey(STATE, RKIN); done` (42_round_transforms R156). -/
def execAddRk (s : State) : Result := command (fun s => done (s.setState (addRoundKey s.state s.rkin))) s

/-- ADDRK_FWD r: NO_KEY, OPERAND, or `STATE <- AddRoundKey(STATE, W[16r .. 16r+15]); done`
(42_round_transforms R157). -/
def execAddRkFwd (round : Nat) (s : State) : Result :=
  roundCommand round (fun s => done (s.setState (addRoundKey s.state (s.roundKeyFwd round)))) s

/-- ADDRK_EQI r: NO_KEY, OPERAND, or `STATE <- AddRoundKey(STATE, DW[16r .. 16r+15]); done`
(42_round_transforms R158). -/
def execAddRkEqi (round : Nat) (s : State) : Result :=
  roundCommand round (fun s => done (s.setState (addRoundKey s.state (s.roundKeyEqi round)))) s

end Sys2Proof.Machine
end

