-- ==== Sys2Proof/Machine/CipherEngines.lean ====
section
/-! DEFINITION. The three cipher engines with their trace hook, the trace record, and CIPHER, INVCIPHER and
EQINVCIPHER (spec/44_cipher_engines.md). -/
namespace Sys2Proof.Machine

/-- The hidden state of an engine inside one command (10_state R50): the working copy of the state, and the trace
records its hook has been given so far, oldest first. -/
structure EngineRun where
  block : Block
  log : List TraceRecord
deriving DecidableEq, Repr

/-- One step `s <- f(s); T(round, step, s)` (44_cipher_engines R190 to R192, R198). -/
def runStep (engine : Engine) (round : Nat) (step : TraceStep) (f : Block → Block) (run : EngineRun) : EngineRun :=
  let s := f run.block
  { block := s, log := run.log ++ [{ engine := engine, round := BitVec.ofNat 4 round, step := step, data := s }] }

/-- `1 .. Nr-1`, the rounds of the forward loop. -/
def roundsUp (nr : Nat) : List Nat := List.range' 1 (nr - 1)

/-- `Nr-1 down to 1`, the rounds of the inverse loops. -/
def roundsDown (nr : Nat) : List Nat := (roundsUp nr).reverse

/-- The loop body of `Cipher` (44_cipher_engines R190). -/
def cipherRound (rk : Nat → Block) (run : EngineRun) (round : Nat) : EngineRun :=
  let run := runStep .cipher round .sb subBytes run
  let run := runStep .cipher round .sr shiftRows run
  let run := runStep .cipher round .mc mixColumns run
  runStep .cipher round .ark (addRoundKey · (rk round)) run

/-- `Cipher(s, RK, Nr)` (44_cipher_engines R190). -/
def cipher (s : Block) (rk : Nat → Block) (nr : Nat) : EngineRun :=
  let run := runStep .cipher 0 .ark (addRoundKey · (rk 0)) { block := s, log := [] }
  let run := (roundsUp nr).foldl (cipherRound rk) run
  let run := runStep .cipher nr .sb subBytes run
  let run := runStep .cipher nr .sr shiftRows run
  runStep .cipher nr .ark (addRoundKey · (rk nr)) run

/-- The loop body of `InvCipher` (44_cipher_engines R191). -/
def invCipherRound (rk : Nat → Block) (run : EngineRun) (round : Nat) : EngineRun :=
  let run := runStep .invCipher round .isr invShiftRows run
  let run := runStep .invCipher round .isb invSubBytes run
  let run := runStep .invCipher round .ark (addRoundKey · (rk round)) run
  runStep .invCipher round .imc invMixColumns run

/-- `InvCipher(s, RK, Nr)` (44_cipher_engines R191). -/
def invCipher (s : Block) (rk : Nat → Block) (nr : Nat) : EngineRun :=
  let run := runStep .invCipher nr .ark (addRoundKey · (rk nr)) { block := s, log := [] }
  let run := (roundsDown nr).foldl (invCipherRound rk) run
  let run := runStep .invCipher 0 .isr invShiftRows run
  let run := runStep .invCipher 0 .isb invSubBytes run
  runStep .invCipher 0 .ark (addRoundKey · (rk 0)) run

/-- The loop body of `EqInvCipher` (44_cipher_engines R192). -/
def eqInvCipherRound (dk : Nat → Block) (run : EngineRun) (round : Nat) : EngineRun :=
  let run := runStep .eqInvCipher round .isb invSubBytes run
  let run := runStep .eqInvCipher round .isr invShiftRows run
  let run := runStep .eqInvCipher round .imc invMixColumns run
  runStep .eqInvCipher round .ark (addRoundKey · (dk round)) run

/-- `EqInvCipher(s, DK, Nr)` (44_cipher_engines R192). -/
def eqInvCipher (s : Block) (dk : Nat → Block) (nr : Nat) : EngineRun :=
  let run := runStep .eqInvCipher nr .ark (addRoundKey · (dk nr)) { block := s, log := [] }
  let run := (roundsDown nr).foldl (eqInvCipherRound dk) run
  let run := runStep .eqInvCipher 0 .isb invSubBytes run
  let run := runStep .eqInvCipher 0 .isr invShiftRows run
  runStep .eqInvCipher 0 .ark (addRoundKey · (dk 0)) run

/-- STATE gets the engine's block; the records are emitted when TRACE_EN = 1 (44_cipher_engines R198, R200). -/
def State.takeRun (s : State) (run : EngineRun) : State :=
  { s with state := run.block, trace := if s.ctrl.traceEn then s.trace ++ run.log else s.trace }

/-- CIPHER (44_cipher_engines R195). -/
def execCipher (s : State) : Result :=
  keyedCommand (fun s => done (s.takeRun (cipher s.state s.roundKeyFwd s.numRounds))) s

/-- INVCIPHER: reads W and never DW (44_cipher_engines R196). -/
def execInvCipher (s : State) : Result :=
  keyedCommand (fun s => done (s.takeRun (invCipher s.state s.roundKeyFwd s.numRounds))) s

/-- EQINVCIPHER: reads DW and never W (44_cipher_engines R197). -/
def execEqInvCipher (s : State) : Result :=
  keyedCommand (fun s => done (s.takeRun (eqInvCipher s.state s.roundKeyEqi s.numRounds))) s

/-! ### The record as bits -/

/-- STEP codes (44_cipher_engines R199). -/
def TraceStep.code : TraceStep → BitVec 3
  | .ark => 0#3
  | .sb => 1#3
  | .sr => 2#3
  | .mc => 3#3
  | .isb => 4#3
  | .isr => 5#3
  | .imc => 6#3

/-- ENGINE codes (44_cipher_engines R199). -/
def Engine.code : Engine → BitVec 2
  | .cipher => 0#2
  | .invCipher => 1#2
  | .eqInvCipher => 2#2

/-- TAG: ROUND [3:0], STEP [6:4], ENGINE [9:8], the rest 0 (44_cipher_engines R199). -/
def TraceRecord.tag (r : TraceRecord) : BitVec 16 := 0#6 ++ r.engine.code ++ 0#1 ++ r.step.code ++ r.round

/-- DATA: byte k of the state at bits `8k+7:8k` (44_cipher_engines R199). -/
def dataBits (s : Block) : BitVec 128 :=
  (List.range 16).foldr (fun k acc => (acc <<< 8) ||| (s.getD k 0).setWidth 128) 0#128

/-- The 144-bit record `(TAG, DATA)`, TAG in the upper bits (44_cipher_engines R199). -/
def TraceRecord.bits (r : TraceRecord) : BitVec 144 := r.tag ++ dataBits r.data

end Sys2Proof.Machine
end

