-- ==== Sys2Proof/Machine/Housekeeping.lean ====
section
/-! DEFINITION. NOP, the one command of no algorithm family (spec/45_housekeeping.md). -/
namespace Sys2Proof.Machine

/-- NOP: "The only effect is STATUS.ERR <- OK" (45_housekeeping R220). -/
def execNop (s : State) : Result := command done s

end Sys2Proof.Machine
end

