-- ==== Sys2Proof/Machine/KeySchedule.lean ====
section
/-! DEFINITION. The key-schedule expander and LOAD_KEY (spec/43_key_schedule.md). -/
namespace Sys2Proof.Machine

/-- The three key sizes (00_scope R3, R8). -/
inductive KeySize where
  | aes128
  | aes192
  | aes256
deriving DecidableEq, Repr

/-- `Nk`, the key length in words (00_scope R8). -/
def KeySize.nk : KeySize → Nat
  | .aes128 => 4
  | .aes192 => 6
  | .aes256 => 8

/-- `Nr = max(4, Nk) + 6` (00_scope R8). -/
def KeySize.nr (ks : KeySize) : Nat := max 4 ks.nk + 6

/-- A cipher key never has more bytes than the KEY register. -/
theorem KeySize.bytes_le (ks : KeySize) : 4 * ks.nk ≤ 32 := by cases ks <;> decide

/-- LOAD_KEY accepts a KEYLEN of 16, 24 and 32 only (10_state R35). -/
def keySizeOfKeylen (keylen : Byte) : Option KeySize :=
  match keylen.toNat with
  | 16 => some .aes128
  | 24 => some .aes192
  | 32 => some .aes256
  | _ => none

/-- The word `[0, 0, 0, 0]`, which no schedule reads: the expander looks up earlier words only (log 13). -/
def zeroWord : Word := Vector.replicate 4 0x00#8

/-- `RotWord([a0, a1, a2, a3]) = [a1, a2, a3, a0]` (43_key_schedule R170). -/
def rotWord (w : Word) : Word := #v[w[1], w[2], w[3], w[0]]

/-- SubWord (43_key_schedule R171). -/
def subWord (w : Word) : Word := mapBytes sbox w

/-- `rc_j` for j = 0..10 (43_key_schedule R172). -/
def rcBytes : List Byte := [0x00, 0x01, 0x02, 0x04, 0x08, 0x10, 0x20, 0x40, 0x80, 0x1B, 0x36]

/-- `Rcon[j] = [rc_j, 0, 0, 0]`. No schedule reads an index past 10 (43_key_schedule R172, R176; log 13). -/
def rcon (j : Nat) : Word := #v[rcBytes.getD j 0x00, 0x00, 0x00, 0x00]

/-- The `temp` that word i XORs into word `i - Nk`, from word `i - 1` (43_key_schedule R173, step 2). -/
def keyTemp (nk i : Nat) (temp : Word) : Word :=
  if i % nk = 0 then xorBytes (subWord (rotWord temp)) (rcon (i / nk))
  else if nk > 6 ∧ i % nk = 4 then subWord temp
  else temp

/-- Word `i` of the schedule whose words `0 .. i-1` are `ws` (43_key_schedule R173). -/
def nextWord (nk : Nat) (ws : List Word) : Word :=
  xorBytes (ws.getD (ws.length - nk) zeroWord) (keyTemp nk ws.length (ws.getD (ws.length - 1) zeroWord))

/-- `n` further words appended to the schedule so far. -/
def expandWords (nk : Nat) : Nat → List Word → List Word
  | 0, ws => ws
  | n + 1, ws => expandWords nk n (ws ++ [nextWord nk ws])

/-- The first `Nk` words, the cipher key word for word (43_key_schedule R173, step 1). -/
def keyWords (ks : KeySize) (k : Bytes (4 * ks.nk)) : List Word :=
  List.ofFn fun i : Fin ks.nk => #v[k[4 * i.val], k[4 * i.val + 1], k[4 * i.val + 2], k[4 * i.val + 3]]

/-- `KeyExpansion(K)`: `4*(Nr+1)` words (43_key_schedule R173). -/
def keyExpansion (ks : KeySize) (k : Bytes (4 * ks.nk)) : List Word :=
  expandWords ks.nk (4 * (ks.nr + 1) - ks.nk) (keyWords ks k)

/-- Round key r: words `4r .. 4r+3`, word `4r + c` being column c (43_key_schedule R174). -/
def roundKeyOfWords (ws : List Word) (r : Nat) : Block :=
  Vector.ofFn fun k => (ws.getD (4 * r + k.val / 4) zeroWord)[k.val % 4]

/-- `RK[0 .. Nr]` (43_key_schedule R174). -/
def roundKeys (nr : Nat) (ws : List Word) : List Block := (List.range (nr + 1)).map (roundKeyOfWords ws)

/-- Round key r of the equivalent-inverse schedule (43_key_schedule R175). -/
def eqInvRoundKey (nr : Nat) (ws : List Word) (r : Nat) : Block :=
  if r = 0 ∨ r = nr then roundKeyOfWords ws r else invMixColumns (roundKeyOfWords ws r)

/-- `EqInvSchedule(RK)`, `DK[0 .. Nr]` (43_key_schedule R175). -/
def eqInvRoundKeys (nr : Nat) (ws : List Word) : List Block := (List.range (nr + 1)).map (eqInvRoundKey nr ws)

/-- Round keys laid out from index 0: byte k of round key r at `16r + k`, zero past them (10_state R46, R47). -/
def scheduleMemory (keys : List Block) : Memory := Memory.fill (keys.flatMap Vector.toList)

/-- W for a key (43_key_schedule R180). -/
def forwardSchedule (ks : KeySize) (k : Bytes (4 * ks.nk)) : Memory :=
  scheduleMemory (roundKeys ks.nr (keyExpansion ks k))

/-- DW for a key (43_key_schedule R180). -/
def eqInvSchedule (ks : KeySize) (k : Bytes (4 * ks.nk)) : Memory :=
  scheduleMemory (eqInvRoundKeys ks.nr (keyExpansion ks k))

/-- The schedules of a key installed, KEYED set (43_key_schedule R180). -/
def State.installKey (s : State) (ks : KeySize) (k : Bytes (4 * ks.nk)) : State :=
  s.setSchedules true (BitVec.ofNat 4 ks.nk) (BitVec.ofNat 4 ks.nr) (forwardSchedule ks k) (eqInvSchedule ks k)

/-- The schedules discarded, KEYED, NK and NR cleared (60_exceptions R234). -/
def State.discardKey (s : State) : State := s.setSchedules false 0#4 0#4 Memory.cleared Memory.cleared

/-- LOAD_KEY: CONFIG discards the schedules; a legal KEYLEN installs those of `KEY[0 .. KEYLEN-1]`
(43_key_schedule R180). -/
def execLoadKey (s : State) : Result :=
  command (fun s =>
    match keySizeOfKeylen s.ctrl.keylen with
    | none => fail .config s.discardKey
    | some ks => done (s.installKey ks (s.keyPrefix (4 * ks.nk) ks.bytes_le))) s

end Sys2Proof.Machine
end

