-- ==== Sys2Proof/Machine/Dispatch.lean ====
section
/-! DEFINITION. The meaning of each command, one arm per constructor (30_encoding R92). -/
namespace Sys2Proof.Machine

def exec (i : Instr) (s : State) : Host.Outcome State Fault Refusal :=
  match i with
  | .nop => Sys2Proof.Machine.execNop s
  | .gfAdd => Sys2Proof.Machine.execGfAdd s
  | .gfXtime => Sys2Proof.Machine.execGfXtime s
  | .gfMul => Sys2Proof.Machine.execGfMul s
  | .sbox => Sys2Proof.Machine.execSbox s
  | .invSbox => Sys2Proof.Machine.execInvSbox s
  | .subBytes => Sys2Proof.Machine.execSubBytes s
  | .invSubBytes => Sys2Proof.Machine.execInvSubBytes s
  | .shiftRows => Sys2Proof.Machine.execShiftRows s
  | .invShiftRows => Sys2Proof.Machine.execInvShiftRows s
  | .mixColumns => Sys2Proof.Machine.execMixColumns s
  | .invMixColumns => Sys2Proof.Machine.execInvMixColumns s
  | .addRk => Sys2Proof.Machine.execAddRk s
  | .addRkFwd round => Sys2Proof.Machine.execAddRkFwd round s
  | .addRkEqi round => Sys2Proof.Machine.execAddRkEqi round s
  | .loadKey => Sys2Proof.Machine.execLoadKey s
  | .cipher => Sys2Proof.Machine.execCipher s
  | .invCipher => Sys2Proof.Machine.execInvCipher s
  | .eqInvCipher => Sys2Proof.Machine.execEqInvCipher s

end Sys2Proof.Machine
end

