-- ==== Sys2Proof/Machine/Flags.lean ====
section
/-! DEFINITION. The flags are STATUS.ERR and STATUS.KEYED; the block has no arithmetic condition codes
(10_state R53). This file gives the codes of ERR and the 32-bit words in which the host reads the control, status
and GF registers (10_state R32, R37, R41, R42). Reserved bits read 0 in each. -/
namespace Sys2Proof.Machine

/-- The code held in STATUS[3:0] (60_exceptions R230). -/
def ErrCode.code : ErrCode → BitVec 4
  | .ok => 0#4
  | .config => 1#4
  | .platform => 2#4
  | .noKey => 3#4
  | .illegal => 4#4
  | .operand => 5#4

/-- CTRL as a 32-bit word (10_state R32). -/
def Ctrl.word (c : Ctrl) : BusWord := 0#16 ++ c.keylen ++ 0#6 ++ BitVec.ofBool c.bo ++ BitVec.ofBool c.traceEn

/-- STATUS as a 32-bit word (10_state R37). -/
def Status.word (t : Status) : BusWord :=
  0#4 ++ t.nr ++ 0#4 ++ t.nk ++ 0#7 ++ BitVec.ofBool t.keyed ++ 0#4 ++ t.err.code

/-- GFOP as a 32-bit word (10_state R41). -/
def Gfop.word (g : Gfop) : BusWord := 0#16 ++ g.b ++ g.a

/-- GFRES as a 32-bit word (10_state R42). -/
def gfresWord (r : Byte) : BusWord := 0#24 ++ r

/-- CTRL byte 0 written with `b`: "CTRL byte 0 keeps only b[1:0]" (20_memory R67). -/
def Ctrl.writeByte0 (c : Ctrl) (b : Byte) : Ctrl := { c with traceEn := b.getLsbD 0, bo := b.getLsbD 1 }

/-- CTRL byte 1 written with `b`: KEYLEN, any value (10_state R35). -/
def Ctrl.writeByte1 (c : Ctrl) (b : Byte) : Ctrl := { c with keylen := b }

end Sys2Proof.Machine
end

