-- ==== Sys2Proof/Machine/Bus.lean ====
section
/-! DEFINITION. The register window, the host's accesses and `Execute` (spec/20_memory.md, 30_encoding R90, R94). -/
namespace Sys2Proof.Machine

/-! ### The address map -/

/-- The mapped regions as (first offset, size), in the order of 20_memory R61: CTRL, CMD, STATUS, GFOP, GFRES, STATE,
RKIN, KEY, W window, DW window. Every other offset is unmapped (R63). -/
def mappedRegions : List (Nat × Nat) :=
  [(0x000, 4), (0x004, 4), (0x008, 4), (0x010, 4), (0x014, 4),
   (0x020, 16), (0x030, 16), (0x040, 32), (0x100, 240), (0x200, 240)]

/-- Whether the byte at offset `o` is mapped (20_memory R61, R63). -/
def mapped (o : Nat) : Bool := mappedRegions.any fun r => decide (r.1 ≤ o ∧ o < r.1 + r.2)

/-- Lane j of a 32-bit value, bits `[8j+7:8j]` (20_memory R64). -/
def laneOf (v : BusWord) (j : Nat) : Byte := v.extractLsb' (8 * j) 8

/-- `ReadByte(o)` (20_memory R66): the current value of an RW or RO byte; 0x00 for an RSV byte and for CMD. Unmapped
bytes never reach it: the access has already failed. -/
def readByte (s : State) (o : Nat) : Byte :=
  if o < 0x004 then laneOf s.ctrl.word o
  else if 0x008 ≤ o ∧ o < 0x00C then laneOf s.status.word (o - 0x008)
  else if 0x010 ≤ o ∧ o < 0x014 then laneOf s.gfop.word (o - 0x010)
  else if 0x014 ≤ o ∧ o < 0x018 then laneOf (gfresWord s.gfres) (o - 0x014)
  else if _h : 0x020 ≤ o ∧ o < 0x030 then s.state[o - 0x020]
  else if _h : 0x030 ≤ o ∧ o < 0x040 then s.rkin[o - 0x030]
  else if _h : 0x040 ≤ o ∧ o < 0x060 then s.key[o - 0x040]
  else if 0x100 ≤ o ∧ o < 0x1F0 then Memory.read s.w (o - 0x100)
  else if 0x200 ≤ o ∧ o < 0x2F0 then Memory.read s.dw (o - 0x200)
  else 0x00#8

/-- `WriteByte(o, b)` (20_memory R67): an RW byte is set, its reserved bits staying 0; RO and RSV bytes ignore the
write. CMD never reaches it. -/
def writeByte (s : State) (o : Nat) (b : Byte) : State :=
  if o = 0x000 then { s with ctrl := s.ctrl.writeByte0 b }
  else if o = 0x001 then { s with ctrl := s.ctrl.writeByte1 b }
  else if o = 0x010 then { s with gfop := { s.gfop with a := b } }
  else if o = 0x011 then { s with gfop := { s.gfop with b := b } }
  else if _h : 0x020 ≤ o ∧ o < 0x030 then { s with state := s.state.set (o - 0x020) b }
  else if _h : 0x030 ≤ o ∧ o < 0x040 then { s with rkin := s.rkin.set (o - 0x030) b }
  else if _h : 0x040 ≤ o ∧ o < 0x060 then { s with key := s.key.set (o - 0x040) b }
  else s

/-! ### Accesses -/

/-- The first check of an access (20_memory R66, R67): its size, its alignment, and that every byte is mapped. A bad
size and a bad offset both are BusError(misaligned), told apart by its cause; the size is looked at first (log 4). -/
def accessFault (off n : Nat) : Option Fault :=
  if n ≠ 1 ∧ n ≠ 2 ∧ n ≠ 4 then some (.misaligned .unsupportedSize)
  else if off % n ≠ 0 then some (.misaligned .offset)
  else if (List.range n).all fun j => mapped (off + j) then none
  else some .unmapped

/-- The value of `n` lanes: `ReadByte(off + j) << (8*j)` put together over j (20_memory R66). -/
def readLanes (s : State) (off : Nat) : Nat → BusWord
  | 0 => 0#32
  | n + 1 => readLanes s off n ||| ((readByte s (off + n)).setWidth 32 <<< (8 * n))

/-- `BusRead(off, n)` (20_memory R66). -/
def busRead (s : State) (off n : Nat) : Except Fault BusWord :=
  match accessFault off n with
  | some r => .error r
  | none => .ok (readLanes s off n)

/-- `for j in 0..n-1: WriteByte(off + j, v[8j+7:8j])` (20_memory R67). -/
def writeLanes (s : State) (off : Nat) (v : BusWord) : Nat → State
  | 0 => s
  | n + 1 => writeByte (writeLanes s off v n) (off + n) (laneOf v n)

/-- A command word the decoder rejects: PLATFORM while BO = 1, else ILLEGAL (30_encoding R94, R95). -/
def illegalCommand (s : State) : Result := command (fail .illegal) s

/-- `Execute(v)` (30_encoding R94). The PLATFORM, NO_KEY and OPERAND checks stand in the meaning of each command, so
that a decoded word runs exactly `exec`. -/
def execute (v : BusWord) (s : State) : Result :=
  match decode v with
  | .ok i => exec i s
  | .error _ => illegalCommand s

/-- `BusWrite(off, n, v)` (20_memory R67). A `.fault` here is the access's bus error. -/
def busWrite (s : State) (off n : Nat) (v : BusWord) : Result :=
  match accessFault off n with
  | some r => .fault r
  | none =>
    if 0x004 ≤ off ∧ off < 0x008 then
      if n = 4 then execute v s else .fault .subwordCmd
    else .next (writeLanes s off v n)

/-- The response of a read (20_memory R66, R68). -/
def readResponse (s : State) (off n : Nat) : Response :=
  match busRead s off n with
  | .ok v => .data n v
  | .error r => .error r

/-- The reset event: every piece of state at its reset value (70_reset R260). The events the outside still has to send
and the responses it already has are not the block's, and stay (log 5). -/
def resetEvent (s : State) : State := { State.reset with pending := s.pending, responses := s.responses }

/-- A write answered: the response is given after the command is complete (20_memory R75). A bus error is answered with
an error response and no effect, and the block goes on (R68, 70_reset R273; log 3). -/
def serveWrite (s : State) (off n : Nat) (v : BusWord) : Result :=
  match busWrite s off n v with
  | .next t => .next (t.respond .written)
  | .fault r => .next (s.respond (.error r))
  | .refused r => .refused r

/-- One event handled (20_memory R73). -/
def serve (e : BusEvent) (s : State) : Result :=
  match e with
  | .read off n => .next (s.respond (readResponse s off.toNat n))
  | .write off n v => serveWrite s off.toNat n v
  | .reset => .next (resetEvent s)

/-- The next pending event handled; a block with nothing pending stays as it is (log 1). -/
def serveNext (s : State) : Result :=
  match s.pending with
  | [] => .next s
  | e :: rest => serve e (s.setPending rest)

/-! ### The platform's side of the window, and the latency -/

/-- The window offset of a host address: `BASE + off` (20_memory R60; log 6). -/
def hostOffset (addr : Nat) : Option (BitVec 12) :=
  if Config.base ≤ addr ∧ addr < Config.base + 4096 then some (BitVec.ofNat 12 (addr - Config.base)) else none

/-- A host read at a host address: it reaches the block only inside the window (20_memory R60). -/
def hostRead (s : State) (addr n : Nat) : State :=
  match hostOffset addr with
  | some off => s.setPending (s.pending ++ [.read off n])
  | none => s

/-- A host write at a host address: it reaches the block only inside the window (20_memory R60). -/
def hostWrite (s : State) (addr n : Nat) (v : BusWord) : State :=
  match hostOffset addr with
  | some off => s.setPending (s.pending ++ [.write off n v])
  | none => s

/-- How long the CMD write of `v` in state `s` is held: LAT of the opcode, the NK the command leaves, CTRL.TRACE_EN and
the error it reports (70_reset R271, R272; log 7). No command ends in a fault or a refusal, so the last arms are not
reached. -/
def commandLatency (v : BusWord) (s : State) : Nat :=
  match execute v s with
  | .next t => Config.lat (fieldOpcode v) t.status.nk s.ctrl.traceEn t.status.err.code
  | .fault _ => 0
  | .refused _ => 0

end Sys2Proof.Machine
end

