-- ==== Sys2Proof/Machine/Step.lean ====
section
/-! DEFINITION. One step of the machine: the block handles the next bus event (20_memory R73). -/
namespace Sys2Proof.Machine

/-- One step. -/
def step (s : State) : Host.Outcome State Fault Refusal := serveNext s

/-- `s` with a 32-bit CMD write of the table word at the head of the pending events: the block fetches no instruction,
"Each command word is taken from the write data of its CMD write, and nowhere else" (20_memory R78; log 1). -/
def State.withFetchWord (s : State) (nbits w : Nat) : State :=
  s.setPending (.write 0x004#12 4 (tableWord nbits w) :: s.pending)

end Sys2Proof.Machine
end

