-- ==== Sys2Proof/Safety.lean ====
section
/-! DEFINITION. What a legal state is: the invariants the spec gives for every state reachable from reset
(10_state R52), in the terms the claims use. -/
namespace Sys2Proof

open Machine

/-- A schedule memory in its canonical form, with no cell outside the 240 bytes (10_state R46, R47; log 8). -/
def ScheduleForm (m : Memory) : Prop := Memory.wf m ∧ ∀ c ∈ m, c.1 < 240

/-- (I1) "If KEYED = 0, then NK = 0, NR = 0, and every byte of W and DW is 0x00" (10_state R52). -/
def UnkeyedForm (s : State) : Prop :=
  s.status.nk = 0#4 ∧ s.status.nr = 0#4 ∧ (∀ j, Memory.read s.w j = 0x00#8) ∧ ∀ j, Memory.read s.dw j = 0x00#8

/-- (I2) with KEYED = 1, NK and NR are those of one key size, and W and DW hold the two schedules of some key of
`4*NK` bytes, their tails zero (10_state R52). -/
def KeyedForm (s : State) : Prop :=
  ∃ (ks : KeySize) (k : Bytes (4 * ks.nk)),
    s.status.nk.toNat = ks.nk ∧ s.status.nr.toNat = ks.nr ∧
    s.w = forwardSchedule ks k ∧ s.dw = eqInvSchedule ks k

/-- The invariant of 10_state R52, with the canonical form of the two memories. -/
structure LegalState (s : State) : Prop where
  formW : ScheduleForm s.w
  formDW : ScheduleForm s.dw
  unkeyed : s.status.keyed = false → UnkeyedForm s
  keyed : s.status.keyed = true → KeyedForm s

end Sys2Proof
end

