-- ==== Sys2Proof/Certificates/Slice0/Obligations.lean ====
section
/-! DEFINITION. The statements for the provers, and the words they are written in: formulas of the spec restated
without the model's own functions where a second reading of the rule is worth having. -/

namespace Sys2Proof.Claims

open Sys2Proof.Machine

/-! ### The field, from its polynomial (40_gf_arith R112) -/

/-- The product of two polynomials over GF(2), each given by the bits of a number below 256. -/
def polyMul (a b : Nat) : Nat :=
  (List.range 8).foldl (fun p i => if a.testBit i then p ^^^ (b <<< i) else p) 0

/-- The remainder of a polynomial of degree below 15 by `x^8+x^4+x^3+x+1`: the bits 14 down to 8 cancelled in turn. -/
def polyMod (p : Nat) : Nat :=
  [6, 5, 4, 3, 2, 1, 0].foldl (fun p i => if p.testBit (8 + i) then p ^^^ (0x11B <<< i) else p) p

/-- "the product of a and b as polynomials over GF(2), reduced modulo x^8+x^4+x^3+x+1" (40_gf_arith R112). -/
def fieldProduct (a b : Byte) : Byte := BitVec.ofNat 8 (polyMod (polyMul a.toNat b.toNat))

/-- Shift left one place, drop bit 8, and XOR 0x1B when bit 7 was set (40_gf_arith R111). -/
def doubled (b : Byte) : Byte := if 128 ≤ b.toNat then (b <<< 1) ^^^ 0x1B#8 else b <<< 1

/-- `Aff(x)` (41_sbox R135). -/
def aff (x : Byte) : Byte :=
  x ^^^ x.rotateLeft 1 ^^^ x.rotateLeft 2 ^^^ x.rotateLeft 3 ^^^ x.rotateLeft 4 ^^^ 0x63#8

/-- `rc_j`, each the double of the one before from 0x01 (43_key_schedule R172). -/
def rc : Nat → Byte
  | 0 => 0x00#8
  | 1 => 0x01#8
  | j + 2 => fieldProduct 0x02#8 (rc (j + 1))

/-! ### Commands -/

/-- The state with another error code and nothing else changed (00_scope R15, `fail`). -/
def withErr (s : State) (e : ErrCode) : State := { s with status := { s.status with err := e } }

/-- The command word `zext_32(OPCODE) | (rnd << 8)` (30_encoding R91, R96). -/
def wordOf (opcode round : Byte) : BusWord := opcode.setWidth 32 ||| (round.setWidth 32 <<< 8)

/-- The common checks of a command that does not use ROUND (30_encoding R94, R95): its one word decodes to it, every
other word of its opcode is ILLEGAL while BO = 0, and with BO = 1 it fails with PLATFORM. -/
def CommonChecks (i : Instr) (opcode : Byte) : Prop :=
  decode (wordOf opcode 0x00#8) = .ok i ∧
  (∀ v s, fieldOpcode v = opcode → v ≠ wordOf opcode 0x00#8 → s.ctrl.bo = false →
    execute v s = .next (withErr s .illegal)) ∧
  ∀ s, s.ctrl.bo = true → exec i s = .next (withErr s .platform)

/-- A command that always runs, with the effect `f` besides ERR <- OK. -/
def PlainCommand (i : Instr) (opcode : Byte) (f : State → State) : Prop :=
  CommonChecks i opcode ∧ ∀ s, s.ctrl.bo = false → exec i s = .next (withErr (f s) .ok)

/-- A command that always runs and replaces STATE by the block that `rel` allows. -/
def BlockCommand (i : Instr) (opcode : Byte) (rel : State → Block → Prop) : Prop :=
  CommonChecks i opcode ∧
  ∀ s, s.ctrl.bo = false → ∃ x, rel s x ∧ exec i s = .next (withErr { s with state := x } .ok)

/-- The assigned opcodes (30_encoding R92). -/
def assignedOpcodes : List Nat :=
  [0x00, 0x01, 0x02, 0x03, 0x08, 0x09, 0x10, 0x11, 0x12, 0x13, 0x14, 0x15, 0x16, 0x17, 0x18, 0x20, 0x30, 0x31, 0x32]

/-- The opcodes that 30_encoding R95 lists as illegal. -/
abbrev UnassignedOpcode (op : Nat) : Prop :=
  (0x04 ≤ op ∧ op ≤ 0x07) ∨ (0x0A ≤ op ∧ op ≤ 0x0F) ∨ (0x19 ≤ op ∧ op ≤ 0x1F) ∨ (0x21 ≤ op ∧ op ≤ 0x2F) ∨ 0x33 ≤ op

/-- A word of 30_encoding R95's list of illegal encodings, from the word's own bits. -/
abbrev IllegalWord (v : BusWord) : Prop :=
  UnassignedOpcode (v.toNat % 256) ∨ v.toNat / 65536 ≠ 0 ∨
  (v.toNat / 256 % 256 ≠ 0 ∧ v.toNat % 256 ≠ 0x17 ∧ v.toNat % 256 ≠ 0x18)

/-- The code a command reports, in the priority order of 60_exceptions R238, from the word's own bits. -/
def reportedCode (v : BusWord) (s : State) : ErrCode :=
  let op := v.toNat % 256
  let rnd := v.toNat / 256 % 256
  let rsv := v.toNat / 65536
  if s.ctrl.bo then .platform
  else if op ∉ assignedOpcodes then .illegal
  else if rsv ≠ 0 then .illegal
  else if rnd ≠ 0 ∧ op ∉ [0x17, 0x18] then .illegal
  else if op ∈ [0x17, 0x18, 0x30, 0x31, 0x32] ∧ s.status.keyed = false then .noKey
  else if op ∈ [0x17, 0x18] ∧ s.status.nr.toNat < rnd then .operand
  else if op = 0x20 ∧ s.ctrl.keylen.toNat ∉ [16, 24, 32] then .config
  else .ok

/-! ### Sequences of commands -/

/-- Commands run one after another. -/
def runCommands : List Instr → State → Result
  | [], s => .next s
  | i :: is, s =>
    match exec i s with
    | .next t => runCommands is t
    | .fault r => .fault r
    | .refused r => .refused r

/-- STATE after each command of a sequence. -/
def statesAfter : List Instr → State → List Block
  | [], _ => []
  | i :: is, s =>
    match exec i s with
    | .next t => t.state :: statesAfter is t
    | .fault _ => []
    | .refused _ => []

/-- `1 .. Nr-1`. -/
def middleRounds (nr : Nat) : List Nat := List.range' 1 (nr - 1)

/-- A first item, the items of each round in order, and the last items. -/
def overRounds {α : Type} (first : α) (rounds : List Nat) (items : Nat → List α) (last : List α) : List α :=
  first :: (rounds.flatMap items ++ last)

/-- The transformations of `Cipher` as single commands (44_cipher_engines R190; 60_exceptions R249). -/
def cipherScript (nr : Nat) : List Instr :=
  overRounds (.addRkFwd 0) (middleRounds nr) (fun r => [.subBytes, .shiftRows, .mixColumns, .addRkFwd r])
    [.subBytes, .shiftRows, .addRkFwd nr]

/-- The trace labels of `Cipher` (44_cipher_engines R190, R198). -/
def cipherLabels (nr : Nat) : List (Nat × TraceStep) :=
  overRounds (0, .ark) (middleRounds nr) (fun r => [(r, .sb), (r, .sr), (r, .mc), (r, .ark)])
    [(nr, .sb), (nr, .sr), (nr, .ark)]

/-- The transformations of `InvCipher` as single commands (44_cipher_engines R191). -/
def invCipherScript (nr : Nat) : List Instr :=
  overRounds (.addRkFwd nr) (middleRounds nr).reverse
    (fun r => [.invShiftRows, .invSubBytes, .addRkFwd r, .invMixColumns]) [.invShiftRows, .invSubBytes, .addRkFwd 0]

/-- The trace labels of `InvCipher` (44_cipher_engines R191, R198). -/
def invCipherLabels (nr : Nat) : List (Nat × TraceStep) :=
  overRounds (nr, .ark) (middleRounds nr).reverse (fun r => [(r, .isr), (r, .isb), (r, .ark), (r, .imc)])
    [(0, .isr), (0, .isb), (0, .ark)]

/-- The transformations of `EqInvCipher` as single commands (44_cipher_engines R192). -/
def eqInvCipherScript (nr : Nat) : List Instr :=
  overRounds (.addRkEqi nr) (middleRounds nr).reverse
    (fun r => [.invSubBytes, .invShiftRows, .invMixColumns, .addRkEqi r]) [.invSubBytes, .invShiftRows, .addRkEqi 0]

/-- The trace labels of `EqInvCipher` (44_cipher_engines R192, R198). -/
def eqInvCipherLabels (nr : Nat) : List (Nat × TraceStep) :=
  overRounds (nr, .ark) (middleRounds nr).reverse (fun r => [(r, .isb), (r, .isr), (r, .imc), (r, .ark)])
    [(0, .isb), (0, .isr), (0, .ark)]

/-- One record per transformation applied, each with its label and the state after it (44_cipher_engines R198). -/
def recordsOf (engine : Engine) (labels : List (Nat × TraceStep)) (states : List Block) : List TraceRecord :=
  List.zipWith (fun l x => { engine := engine, round := BitVec.ofNat 4 l.1, step := l.2, data := x }) labels states

/-- The command `i` does what the single commands `script` do one after another, and emits one record of `engine` for
each of them, with the labels `labels`, when TRACE_EN = 1 and none when it is 0. -/
def EngineIsScript (i : Instr) (engine : Engine) (script : Nat → List Instr) (labels : Nat → List (Nat × TraceStep)) : Prop :=
  ∀ s, s.ctrl.bo = false → s.status.keyed = true →
    ∃ u, runCommands (script s.status.nr.toNat) s = .next u ∧
      exec i s = .next { u with
        trace := if s.ctrl.traceEn then
            s.trace ++ recordsOf engine (labels s.status.nr.toNat) (statesAfter (script s.status.nr.toNat) s)
          else s.trace }

/-! ### Schedules in their memories -/

/-- Word i of a schedule memory, `m[4i .. 4i+3]` (10_state R46). -/
def scheduleWord (m : Memory) (i : Nat) : Word :=
  #v[Memory.read m (4 * i), Memory.read m (4 * i + 1), Memory.read m (4 * i + 2), Memory.read m (4 * i + 3)]

/-- The word XORed into word `i - Nk`, from word `i - 1` (43_key_schedule R170 to R173). -/
def tempWord (nk i : Nat) (t : Word) : Word :=
  if i % nk = 0 then #v[sbox t[1] ^^^ rc (i / nk), sbox t[2], sbox t[3], sbox t[0]]
  else if nk = 8 ∧ i % nk = 4 then #v[sbox t[0], sbox t[1], sbox t[2], sbox t[3]]
  else t

/-- The state just before LOAD_KEY succeeds: BO = 0 and KEYLEN = 4*Nk for a supported Nk (43_key_schedule R180). -/
abbrev ReadyToLoad (s : State) (nk : Nat) : Prop :=
  s.ctrl.bo = false ∧ nk ∈ [4, 6, 8] ∧ s.ctrl.keylen.toNat = 4 * nk

/-! ### Accesses -/

/-- An access of n bytes at `off` passes the checks of 20_memory R66. -/
abbrev GoodAccess (off n : Nat) : Prop := n ∈ [1, 2, 4] ∧ off % n = 0 ∧ ∀ j < n, mapped (off + j) = true

/-- The reason of the bus error that an access of n bytes at `off` ends with, in the order of the checks of 20_memory
R66, R67 and R69. Both a bad size and a bad offset are misaligned; the cause R68 lists is fixed where one of the two
conditions alone holds, and left open where both do (log 4). -/
abbrev ReasonOfError (off n : Nat) (r : Fault) : Prop :=
  if n ∉ [1, 2, 4] then r = .misaligned .unsupportedSize ∨ (off % n ≠ 0 ∧ r = .misaligned .offset)
  else if off % n ≠ 0 then r = .misaligned .offset
  else if ∃ j < n, mapped (off + j) = false then r = .unmapped
  else r = .subwordCmd

/-- The unmapped offsets of 20_memory R63, as that rule lists them. -/
abbrev UnmappedOffset (o : Nat) : Prop :=
  (0x00C ≤ o ∧ o ≤ 0x00F) ∨ (0x018 ≤ o ∧ o ≤ 0x01F) ∨ (0x060 ≤ o ∧ o ≤ 0x0FF) ∨ (0x1F0 ≤ o ∧ o ≤ 0x1FF) ∨ 0x2F0 ≤ o

/-- The event is the CMD write that issues the command word `v` (20_memory R69). -/
def IssuesCommand (e : BusEvent) (v : BusWord) : Prop := e = .write 0x004#12 4 v

/-- What the byte at an offset outside CMD reads after a host write of `b` to it, having read `old` before
(20_memory R61, R67, R70). -/
def byteAfterWrite (o : Nat) (b old : Byte) : Byte :=
  if o = 0x000 then b &&& 0x03#8
  else if o = 0x001 ∨ o = 0x010 ∨ o = 0x011 ∨ (0x020 ≤ o ∧ o < 0x060) then b
  else old

end Sys2Proof.Claims

open Sys2Proof
open Sys2Proof.Machine
open Sys2Proof.Claims

/-! ### Reset, invariants and progress -/

/-- 10_state R54: the value of every piece of the block's state after reset. -/
def Obligations.ResetStateIsAsListed : Prop :=
  let s := State.reset
  s.ctrl.traceEn = false ∧ s.ctrl.bo = false ∧ s.ctrl.keylen = 0x00#8 ∧ s.ctrl.word = 0#32 ∧
  s.status.err = .ok ∧ s.status.keyed = false ∧ s.status.nk = 0#4 ∧ s.status.nr = 0#4 ∧
  s.gfop.a = 0x00#8 ∧ s.gfop.b = 0x00#8 ∧ s.gfres = 0x00#8 ∧
  (∀ (k : Nat) (_ : k < 16), s.state[k] = 0x00#8 ∧ s.rkin[k] = 0x00#8) ∧
  (∀ (k : Nat) (_ : k < 32), s.key[k] = 0x00#8) ∧
  (∀ j < 240, Memory.read s.w j = 0x00#8 ∧ Memory.read s.dw j = 0x00#8) ∧ s.trace = []

/-- 70_reset R260: a reset pulse puts the block in its reset state. That the events still to come and the responses
already given stay is the model's choice (log 5). -/
def Obligations.ResetPulseRestoresResetState : Prop :=
  ∀ s rest, s.pending = .reset :: rest →
    step s = .next { State.reset with pending := rest, responses := s.responses }

/-- The invariant holds at reset (10_state R52; the canonical form of the two memories is the model's, log 8). -/
def Obligations.ResetMeetsInvariant : Prop := LegalState State.reset

/-- Every step from a state that meets the invariant leads to one that meets it (10_state R52; the canonical form of
the two memories is the model's, log 8). -/
def Obligations.StepKeepsInvariant : Prop := ∀ s t, LegalState s → step s = .next t → LegalState t

/-- 10_state R52, (I1) and (I2), in every state that any sequence of host accesses and resets leads to from reset. That
the sequence is a list in State is the model's choice (log 1). -/
def Obligations.RunsFromResetKeepSchedulesLegal : Prop :=
  ∀ events n t, Host.Core.run core n { State.reset with pending := events } = .next t →
    (t.status.keyed = false →
      t.status.nk = 0#4 ∧ t.status.nr = 0#4 ∧ ∀ j, Memory.read t.w j = 0x00#8 ∧ Memory.read t.dw j = 0x00#8) ∧
    (t.status.keyed = true →
      ∃ (ks : KeySize) (k : Bytes (4 * ks.nk)),
        t.status.nk.toNat = ks.nk ∧ t.status.nr.toNat = max 4 ks.nk + 6 ∧
        (∀ r ≤ ks.nr, ∀ (j : Nat) (_ : j < 16),
          Memory.read t.w (16 * r + j) = (roundKeyOfWords (keyExpansion ks k) r)[j] ∧
          Memory.read t.dw (16 * r + j) = (eqInvRoundKey ks.nr (keyExpansion ks k) r)[j]) ∧
        ∀ j, 16 * (ks.nr + 1) ≤ j → Memory.read t.w j = 0x00#8 ∧ Memory.read t.dw j = 0x00#8)

/-- 70_reset R273: the block has no hang and no stuck state; a run makes progress at every access, bus errors among
them. Every host script runs to its end; that the script is a list in State is the model's choice (log 1). -/
def Obligations.EveryScriptRunsToItsEnd : Prop :=
  (∀ s, ∃ t, step s = .next t ∧ t.pending = s.pending.tail) ∧
  ∀ s, ∃ t, Host.Core.run core s.pending.length s = .next t ∧ t.pending = []

/-! ### Encoding -/

/-- A 32-bit CMD write of any word `v` makes the step `Execute(v)` (20_memory R67, R75, 30_encoding R90, R94): exec of
`i` where `v` decodes to `i`, and ILLEGAL, or PLATFORM while BO = 1, with no other effect where it does not decode
(R95). The write's event is taken off and its response given after; the two lists are the model's (logs 1 and 2). -/
def Obligations.StepRunsDecodedCommand : Prop :=
  ∀ s v rest, s.pending = .write 0x004#12 4 v :: rest →
    ∃ t, execute v { s with pending := rest } = .next t ∧
      step s = .next { t with responses := t.responses ++ [.written] } ∧
      (∀ i, decode v = .ok i → i.wellFormed = true → exec i { s with pending := rest } = .next t) ∧
      ∀ r, decode v = .error r →
        t = withErr { s with pending := rest } (if s.ctrl.bo then .platform else .illegal)

/-- Words written out from 30_encoding R91, R92 and the opcode table, and their instructions. -/
def Obligations.WordsOfTheTableDecode : Prop :=
  decode 0x00000000#32 = .ok .nop ∧ decode 0x00000003#32 = .ok .gfMul ∧ decode 0x00000009#32 = .ok .invSbox ∧
  decode 0x00000014#32 = .ok .mixColumns ∧ decode 0x00000A17#32 = .ok (.addRkFwd 10) ∧
  decodeBytes [0x18#8, 0xFF#8, 0x00#8, 0x00#8] = .ok (.addRkEqi 255) ∧ decode 0x00000020#32 = .ok .loadKey ∧
  decode 0x00000032#32 = .ok .eqInvCipher

/-- 30_encoding R91, R96: the decoder reads back the command word of every well-formed instruction, every round index
among them, also when the word comes as the opcode table numbers its bits. -/
def Obligations.DecodeReadsBackEncode : Prop :=
  ∀ i : Instr, i.wellFormed = true → decode (encode i) = .ok i ∧ decodeTableWord 32 (encode i).toNat = some i

/-- 30_encoding R96: a legal word is the word of exactly the instruction it decodes to. -/
def Obligations.LegalWordsAreEncodings : Prop :=
  ∀ v i, decode v = .ok i → i.wellFormed = true ∧ encode i = v

/-- 30_encoding R96: the legal words are one for each of the 17 opcodes without ROUND and 256 each for 0x17 and 0x18. -/
def Obligations.LegalWordsCounted : Prop :=
  ∀ v : BusWord, (∃ i, decode v = .ok i) ↔
    v.toNat ∈ assignedOpcodes ∨ ∃ rnd : Byte, v = wordOf 0x17#8 rnd ∨ v = wordOf 0x18#8 rnd

/-- 30_encoding R95: the illegal encodings, and that no other word is illegal. -/
def Obligations.IllegalEncodingsFail : Prop :=
  (∀ v s, IllegalWord v → s.ctrl.bo = false → execute v s = .next (withErr s .illegal)) ∧
  (∀ v s, IllegalWord v → s.ctrl.bo = true → execute v s = .next (withErr s .platform)) ∧
  ∀ v, ¬ IllegalWord v → ∃ i, decode v = .ok i

/-! ### Command errors -/

/-- 60_exceptions R238: every command word, in every state, completes and reports the first code of the priority
order. -/
def Obligations.CommandReportsFirstError : Prop :=
  ∀ v s, ∃ t, execute v s = .next t ∧ t.status.err = reportedCode v s

/-- 60_exceptions R231: a failed command has no effect except ERR, and with CONFIG the schedules are invalidated too. -/
def Obligations.FailedCommandKeepsState : Prop :=
  (∀ v s, reportedCode v s ≠ .ok → reportedCode v s ≠ .config → execute v s = .next (withErr s (reportedCode v s))) ∧
  ∀ v s, reportedCode v s = .config → ∃ t, execute v s = .next t ∧
    t = { s with status := { err := .config, keyed := false, nk := 0#4, nr := 0#4 }, w := t.w, dw := t.dw } ∧
    ∀ j, Memory.read t.w j = 0x00#8 ∧ Memory.read t.dw j = 0x00#8

/-- 60_exceptions R233: while BO = 1 every command word fails with PLATFORM and changes nothing but ERR, and with BO = 0
none does. -/
def Obligations.PlatformErrorExactlyWhileBo : Prop :=
  (∀ v s, s.ctrl.bo = true → execute v s = .next (withErr s .platform)) ∧
  ∀ v s, s.ctrl.bo = false → ∃ t, execute v s = .next t ∧ t.status.err ≠ .platform

/-- 60_exceptions R234: CONFIG is raised only by LOAD_KEY with a KEYLEN other than 16, 24 and 32, and clears KEYED, NK,
NR and every byte of W and DW. -/
def Obligations.ConfigErrorOnlyFromLoadKey : Prop :=
  (∀ s, s.ctrl.bo = false → s.ctrl.keylen.toNat ∉ [16, 24, 32] →
    ∃ t, exec .loadKey s = .next t ∧ t.status = { err := .config, keyed := false, nk := 0#4, nr := 0#4 } ∧
      ∀ j, Memory.read t.w j = 0x00#8 ∧ Memory.read t.dw j = 0x00#8) ∧
  ∀ v s t, execute v s = .next t → t.status.err = .config →
    decode v = .ok .loadKey ∧ s.ctrl.keylen.toNat ∉ [16, 24, 32]

/-- 70_reset R264: the commands that work straight after reset; the others report NO_KEY or CONFIG there. -/
def Obligations.CommandsStraightAfterReset : Prop :=
  (∀ i ∈ [Instr.nop, .gfAdd, .gfXtime, .gfMul, .sbox, .invSbox, .subBytes, .invSubBytes, .shiftRows, .invShiftRows,
      .mixColumns, .invMixColumns, .addRk], ∃ t, exec i State.reset = .next t ∧ t.status.err = .ok) ∧
  (∀ r : Nat, ∀ i ∈ [Instr.addRkFwd r, .addRkEqi r, .cipher, .invCipher, .eqInvCipher],
    exec i State.reset = .next (withErr State.reset .noKey)) ∧
  ∃ t, exec .loadKey State.reset = .next t ∧ t.status.err = .config

/-! ### The field unit and the S-box -/

/-- 45_housekeeping R220: NOP. -/
def Obligations.NopOnlyWritesErr : Prop := PlainCommand .nop 0x00#8 fun s => s

/-- 40_gf_arith R113 to R115: GF_ADD, GF_XTIME and GF_MUL, the product being that of polynomials reduced by 0x11B. -/
def Obligations.GfCommandsCompute : Prop :=
  PlainCommand .gfAdd 0x01#8 (fun s => { s with gfres := s.gfop.a ^^^ s.gfop.b }) ∧
  PlainCommand .gfXtime 0x02#8 (fun s => { s with gfres := doubled s.gfop.a }) ∧
  PlainCommand .gfMul 0x03#8 (fun s => { s with gfres := fieldProduct s.gfop.a s.gfop.b })

/-- 40_gf_arith R116: the laws of the field operations, and that every nonzero element has an inverse. -/
def Obligations.FieldLaws : Prop :=
  (∀ a b, gfAdd a b = gfAdd b a) ∧ (∀ a b c, gfAdd (gfAdd a b) c = gfAdd a (gfAdd b c)) ∧
  (∀ a, gfAdd a a = 0x00#8) ∧ (∀ a, gfAdd a 0x00#8 = a) ∧ (∀ a b, gfMul a b = gfMul b a) ∧
  (∀ a b c, gfMul a (gfAdd b c) = gfAdd (gfMul a b) (gfMul a c)) ∧
  ∀ a, a ≠ 0x00#8 → ∃ b, gfMul a b = 0x01#8

/-- 41_sbox R132, R133: SBOX and INVSBOX look up A in the tables of R130 and R131; the S-box has no fixed point. -/
def Obligations.SboxCommandsLookUp : Prop :=
  PlainCommand .sbox 0x08#8 (fun s => { s with gfres := sbox s.gfop.a }) ∧
  PlainCommand .invSbox 0x09#8 (fun s => { s with gfres := invSbox s.gfop.a }) ∧
  (∀ b, sbox b ≠ b) ∧ sbox 0x00#8 = 0x63#8 ∧ sbox 0x53#8 = 0xED#8 ∧ sbox 0xFF#8 = 0x16#8 ∧
  invSbox 0x63#8 = 0x00#8 ∧ invSbox 0x00#8 = 0x52#8 ∧ invSbox 0xED#8 = 0x53#8 ∧ invSbox 0xFF#8 = 0x7D#8

/-- 41_sbox R134: the tables are inverse permutations; R135: `SBox[b] = Aff(inv(b))`. -/
def Obligations.SboxTablesInvertAndMatchConstruction : Prop :=
  (∀ b, invSbox (sbox b) = b ∧ sbox (invSbox b) = b) ∧ sbox 0x00#8 = aff 0x00#8 ∧
  ∀ b, b ≠ 0x00#8 → ∃ c, gfMul b c = 0x01#8 ∧ sbox b = aff c

/-! ### The round transformations -/

/-- 42_round_transforms R150, R151: SUBBYTES and INVSUBBYTES replace every byte of STATE by its table entry. -/
def Obligations.SubBytesCommandsCompute : Prop :=
  BlockCommand .subBytes 0x10#8 (fun s x => ∀ (k : Nat) (_ : k < 16), x[k] = sbox s.state[k]) ∧
  BlockCommand .invSubBytes 0x11#8 (fun s x => ∀ (k : Nat) (_ : k < 16), x[k] = invSbox s.state[k])

/-- 42_round_transforms R152, R153 with R142, R143: SHIFTROWS and INVSHIFTROWS. -/
def Obligations.ShiftRowsCommandsCompute : Prop :=
  BlockCommand .shiftRows 0x12#8 (fun s x => ∀ (r c : Nat) (_ : r < 4) (_ : c < 4),
    x[r + 4 * c] = s.state[r + 4 * ((c + r) % 4)]) ∧
  BlockCommand .invShiftRows 0x13#8 (fun s x => ∀ (r c : Nat) (_ : r < 4) (_ : c < 4),
    x[r + 4 * c] = s.state[r + 4 * ((c + 4 - r) % 4)])

/-- 42_round_transforms R154, R155 with R144, R145: MIXCOLUMNS and INVMIXCOLUMNS, the matrices given by their circulant
first rows and the products as products of polynomials. -/
def Obligations.MixColumnsCommandsCompute : Prop :=
  BlockCommand .mixColumns 0x14#8 (fun s x => ∀ (r c : Nat) (_ : r < 4) (_ : c < 4),
    let m : Bytes 4 := #v[0x02, 0x03, 0x01, 0x01]
    x[r + 4 * c] =
      fieldProduct m[(4 - r) % 4] s.state[4 * c] ^^^ fieldProduct m[(5 - r) % 4] s.state[1 + 4 * c] ^^^
      fieldProduct m[(6 - r) % 4] s.state[2 + 4 * c] ^^^ fieldProduct m[(7 - r) % 4] s.state[3 + 4 * c]) ∧
  BlockCommand .invMixColumns 0x15#8 (fun s x => ∀ (r c : Nat) (_ : r < 4) (_ : c < 4),
    let m : Bytes 4 := #v[0x0E, 0x0B, 0x0D, 0x09]
    x[r + 4 * c] =
      fieldProduct m[(4 - r) % 4] s.state[4 * c] ^^^ fieldProduct m[(5 - r) % 4] s.state[1 + 4 * c] ^^^
      fieldProduct m[(6 - r) % 4] s.state[2 + 4 * c] ^^^ fieldProduct m[(7 - r) % 4] s.state[3 + 4 * c])

/-- 42_round_transforms R156: ADDRK XORs RKIN into STATE. -/
def Obligations.AddRkCommandComputes : Prop :=
  BlockCommand .addRk 0x16#8 (fun s x => ∀ (k : Nat) (_ : k < 16), x[k] = s.state[k] ^^^ s.rkin[k])

/-- 42_round_transforms R157, R158: ADDRK_FWD and ADDRK_EQI. Each of their 256 words decodes; they fail with PLATFORM,
NO_KEY or OPERAND in this order, and else XOR round key r of their schedule into STATE, at `16r .. 16r+15`. -/
def Obligations.AddRkRoundCommandsCompute : Prop :=
  (∀ r : Byte, decode (wordOf 0x17#8 r) = .ok (.addRkFwd r.toNat) ∧ decode (wordOf 0x18#8 r) = .ok (.addRkEqi r.toNat)) ∧
  ∀ (r : Nat) (s : State),
    (s.ctrl.bo = true → exec (.addRkFwd r) s = .next (withErr s .platform) ∧
      exec (.addRkEqi r) s = .next (withErr s .platform)) ∧
    (s.ctrl.bo = false → s.status.keyed = false → exec (.addRkFwd r) s = .next (withErr s .noKey) ∧
      exec (.addRkEqi r) s = .next (withErr s .noKey)) ∧
    (s.ctrl.bo = false → s.status.keyed = true → s.status.nr.toNat < r →
      exec (.addRkFwd r) s = .next (withErr s .operand) ∧ exec (.addRkEqi r) s = .next (withErr s .operand)) ∧
    (s.ctrl.bo = false → s.status.keyed = true → r ≤ s.status.nr.toNat →
      ∃ x y : Block,
        exec (.addRkFwd r) s = .next (withErr { s with state := x } .ok) ∧
        exec (.addRkEqi r) s = .next (withErr { s with state := y } .ok) ∧
        (∀ (k : Nat) (_ : k < 16), x[k] = s.state[k] ^^^ Memory.read s.w (16 * r + k) ∧
          y[k] = s.state[k] ^^^ Memory.read s.dw (16 * r + k)) ∧
        (LegalState s → r = 0 ∨ r = s.status.nr.toNat → x = y))

/-- 42_round_transforms R147: each transformation undoes its inverse, both ways round. -/
def Obligations.TransformationsUndoEachOther : Prop :=
  ∀ s k : Block,
    invShiftRows (shiftRows s) = s ∧ shiftRows (invShiftRows s) = s ∧
    invMixColumns (mixColumns s) = s ∧ mixColumns (invMixColumns s) = s ∧
    invSubBytes (subBytes s) = s ∧ subBytes (invSubBytes s) = s ∧ addRoundKey (addRoundKey s k) k = s

/-- 42_round_transforms R149: the byte lanes of SubBytes and AddRoundKey, the rows of ShiftRows, the columns of
MixColumns, and the same of their inverses. -/
def Obligations.TransformationLanes : Prop :=
  (∀ (s t a b : Block) (k : Nat) (_ : k < 16), s[k] = t[k] →
    (subBytes s)[k] = (subBytes t)[k] ∧ (invSubBytes s)[k] = (invSubBytes t)[k] ∧
    (a[k] = b[k] → (addRoundKey s a)[k] = (addRoundKey t b)[k])) ∧
  (∀ (k : Nat) (_ : k < 16), ∃ (i j : Nat) (_ : i < 16) (_ : j < 16), i % 4 = k % 4 ∧ j % 4 = k % 4 ∧
    ∀ s : Block, (shiftRows s)[k] = s[i] ∧ (invShiftRows s)[k] = s[j]) ∧
  ∀ (s t : Block) (c : Nat) (_ : c < 4), (∀ (r : Nat) (_ : r < 4), s[r + 4 * c] = t[r + 4 * c]) →
    ∀ (r : Nat) (_ : r < 4), (mixColumns s)[r + 4 * c] = (mixColumns t)[r + 4 * c] ∧
      (invMixColumns s)[r + 4 * c] = (invMixColumns t)[r + 4 * c]

/-! ### LOAD_KEY -/

/-- 43_key_schedule R180: LOAD_KEY with a supported key length completes, sets KEYED, NK and NR, and writes W, DW and
STATUS only. -/
def Obligations.LoadKeyCompletes : Prop :=
  ∀ s nk, ReadyToLoad s nk → ∃ t, exec .loadKey s = .next t ∧
    t = { s with
      status := { err := .ok, keyed := true, nk := BitVec.ofNat 4 nk, nr := BitVec.ofNat 4 (max 4 nk + 6) },
      w := t.w, dw := t.dw } ∧
    ∀ j, 16 * (max 4 nk + 7) ≤ j → Memory.read t.w j = 0x00#8 ∧ Memory.read t.dw j = 0x00#8

/-- 43_key_schedule R173: the words W holds after LOAD_KEY: the key, word for word, and then each from the one before
it and the one Nk before it. -/
def Obligations.LoadKeyExpandsKey : Prop :=
  ∀ s nk, ReadyToLoad s nk → ∃ t, exec .loadKey s = .next t ∧
    (∀ (i : Nat) (_ : i < nk) (_ : nk ≤ 8), scheduleWord t.w i =
      #v[s.key[4 * i], s.key[4 * i + 1], s.key[4 * i + 2], s.key[4 * i + 3]]) ∧
    ∀ i, nk ≤ i → i < 4 * (max 4 nk + 7) → ∀ (j : Nat) (_ : j < 4), (scheduleWord t.w i)[j] =
      (scheduleWord t.w (i - nk))[j] ^^^ (tempWord nk i (scheduleWord t.w (i - 1)))[j]

/-- 43_key_schedule R175, R178: after LOAD_KEY, round keys 1..Nr-1 of DW are InvMixColumns of those of W, and round keys
0 and Nr are those of W. -/
def Obligations.LoadKeySchedulesConsistent : Prop :=
  ∀ s nk, ReadyToLoad s nk → ∃ t, exec .loadKey s = .next t ∧
    roundKeyOf t.dw 0 = roundKeyOf t.w 0 ∧
    roundKeyOf t.dw (max 4 nk + 6) = roundKeyOf t.w (max 4 nk + 6) ∧
    ∀ r, 1 ≤ r → r ≤ max 4 nk + 5 → roundKeyOf t.dw r = invMixColumns (roundKeyOf t.w r)

/-- 10_state R45: LOAD_KEY reads `KEY[0 .. KEYLEN-1]` and CTRL, and nothing else decides the schedules and the status it
leaves: not the rest of KEY, not the old schedules, not any other register. -/
def Obligations.LoadKeyReadsOnlyKeyPrefix : Prop :=
  ∀ s t, s.ctrl = t.ctrl → s.ctrl.bo = false →
    (∀ (j : Nat) (_ : j < 32), j < s.ctrl.keylen.toNat → s.key[j] = t.key[j]) →
    ∃ s' t', exec .loadKey s = .next s' ∧ exec .loadKey t = .next t' ∧
      s'.w = t'.w ∧ s'.dw = t'.dw ∧ s'.status = t'.status

/-- 43_key_schedule R181: W, DW, KEYED, NK and NR change only by a LOAD_KEY command and by reset: no other command and
no host write changes them. -/
def Obligations.OnlyLoadKeyWritesSchedules : Prop :=
  ∀ s t, step s = .next t →
    (t.w = s.w ∧ t.dw = s.dw ∧ t.status.keyed = s.status.keyed ∧ t.status.nk = s.status.nk ∧ t.status.nr = s.status.nr) ∨
    ∃ e rest, s.pending = e :: rest ∧ (e = .reset ∨ IssuesCommand e (wordOf 0x20#8 0x00#8))

/-! ### The cipher engines and the trace -/

/-- 44_cipher_engines R190, R195, R198: CIPHER is its transformations one after another, each with its trace record. -/
def Obligations.CipherIsItsSingleSteps : Prop := EngineIsScript .cipher .cipher cipherScript cipherLabels

/-- 44_cipher_engines R191, R196, R198: the same of INVCIPHER, on the round keys of W. -/
def Obligations.InvCipherIsItsSingleSteps : Prop := EngineIsScript .invCipher .invCipher invCipherScript invCipherLabels

/-- 44_cipher_engines R192, R197, R198: the same of EQINVCIPHER, on the round keys of DW. -/
def Obligations.EqInvCipherIsItsSingleSteps : Prop :=
  EngineIsScript .eqInvCipher .eqInvCipher eqInvCipherScript eqInvCipherLabels

/-- 44_cipher_engines R193: for every key size, key and block, LOAD_KEY, then CIPHER, then either inverse cipher gives
the block back. -/
def Obligations.CipherRoundTrips : Prop :=
  ∀ s nk, ReadyToLoad s nk → ∃ loaded enciphered dec eqDec,
    exec .loadKey s = .next loaded ∧ exec .cipher loaded = .next enciphered ∧
    exec .invCipher enciphered = .next dec ∧ dec.state = s.state ∧
    exec .eqInvCipher enciphered = .next eqDec ∧ eqDec.state = s.state

/-- 44_cipher_engines R197: under the same key, EQINVCIPHER and INVCIPHER leave the same STATE, for every STATE. -/
def Obligations.InverseCiphersAgree : Prop :=
  ∀ s, LegalState s → s.ctrl.bo = false → s.status.keyed = true →
    ∃ t u, exec .invCipher s = .next t ∧ exec .eqInvCipher s = .next u ∧ t.state = u.state

/-- 44_cipher_engines R198: with tracing on, a cipher command emits `4*Nr` records, 40, 48 or 56, every round label at
most 14, and the last record holds the block left in STATE. -/
def Obligations.CipherCommandsEmitAllRounds : Prop :=
  ∀ i ∈ [Instr.cipher, .invCipher, .eqInvCipher], ∀ s, LegalState s → s.ctrl.bo = false → s.status.keyed = true →
    s.ctrl.traceEn = true →
    ∃ t records last, exec i s = .next t ∧ t.trace = s.trace ++ records ++ [last] ∧
      records.length + 1 = 4 * s.status.nr.toNat ∧ records.length + 1 ∈ [40, 48, 56] ∧
      last.data = t.state ∧ ∀ r ∈ records ++ [last], r.round.toNat ≤ 14

/-- 44_cipher_engines R198, 10_state R51: the trace is only appended to, except by reset (log 5), and only by CIPHER,
INVCIPHER and EQINVCIPHER with TRACE_EN = 1. -/
def Obligations.TraceIsAppendOnly : Prop :=
  ∀ s t, step s = .next t → (∀ rest, s.pending ≠ .reset :: rest) →
    ∃ records, t.trace = s.trace ++ records ∧
      (records ≠ [] → s.ctrl.traceEn = true ∧ ∃ rest i, s.pending = .write 0x004#12 4 (encode i) :: rest ∧
        i ∈ [Instr.cipher, .invCipher, .eqInvCipher])

/-- 44_cipher_engines R200, 10_state R33: a command's effect on every register and memory is the same with tracing on
and off, and with tracing off nothing is emitted. -/
def Obligations.TracingIsInert : Prop :=
  ∀ i (s : State), ∃ traced plain : State,
    exec i { s with ctrl := { s.ctrl with traceEn := true } } = .next traced ∧
    exec i { s with ctrl := { s.ctrl with traceEn := false } } = .next plain ∧
    traced = { plain with ctrl := { s.ctrl with traceEn := true }, trace := traced.trace } ∧ plain.trace = s.trace

/-- 44_cipher_engines R199: where the 144-bit record holds its fields, and their codes. -/
def Obligations.TraceRecordLayout : Prop :=
  (∀ r : TraceRecord,
    (∀ (k : Nat) (_ : k < 16), r.bits.extractLsb' (8 * k) 8 = r.data[k]) ∧
    r.bits.extractLsb' 128 4 = r.round ∧ r.bits.extractLsb' 132 3 = r.step.code ∧ r.bits.extractLsb' 135 1 = 0#1 ∧
    r.bits.extractLsb' 136 2 = r.engine.code ∧ r.bits.extractLsb' 138 6 = 0#6) ∧
  [TraceStep.ark, .sb, .sr, .mc, .isb, .isr, .imc].map TraceStep.code = [0#3, 1#3, 2#3, 3#3, 4#3, 5#3, 6#3] ∧
  [Engine.cipher, .invCipher, .eqInvCipher].map Engine.code = [0#2, 1#2, 2#2]

/-! ### Frames -/

/-- 30_encoding R92, 60_exceptions R231: NOP and the GF and S-box commands change R and ERR and nothing else: of the
window only the bytes of STATUS.ERR (0x008) and GFRES.R (0x014). -/
def Obligations.GfCommandsFrame : Prop :=
  ∀ i ∈ [Instr.nop, .gfAdd, .gfXtime, .gfMul, .sbox, .invSbox], ∀ s t, exec i s = .next t →
    t = { s with gfres := t.gfres, status := { s.status with err := t.status.err } } ∧
    (i = .nop ∨ t.status.err ≠ .ok → t.gfres = s.gfres) ∧
    ∀ o, o ≠ 0x008 → o ≠ 0x014 → readByte t o = readByte s o

/-- 30_encoding R92, 60_exceptions R231: the round-transformation and cipher commands change STATE, ERR and the trace
stream and nothing else: of the window only the byte of STATUS.ERR and the sixteen bytes of STATE. -/
def Obligations.StateCommandsFrame : Prop :=
  ∀ r : Nat, ∀ i ∈ [Instr.subBytes, .invSubBytes, .shiftRows, .invShiftRows, .mixColumns, .invMixColumns, .addRk,
      .addRkFwd r, .addRkEqi r, .cipher, .invCipher, .eqInvCipher], ∀ s t, exec i s = .next t →
    t = { s with state := t.state, trace := t.trace, status := { s.status with err := t.status.err } } ∧
    (t.status.err ≠ .ok → t.state = s.state ∧ t.trace = s.trace) ∧
    (i ∉ [Instr.cipher, .invCipher, .eqInvCipher] → t.trace = s.trace) ∧
    ∀ o, o ≠ 0x008 → ¬ (0x020 ≤ o ∧ o < 0x030) → readByte t o = readByte s o

/-- 30_encoding R92, 43_key_schedule R180: LOAD_KEY changes STATUS, W and DW and nothing else: of the window only the
bytes of STATUS and the two schedule windows. -/
def Obligations.LoadKeyFrame : Prop :=
  ∀ s t, exec .loadKey s = .next t →
    t = { s with status := t.status, w := t.w, dw := t.dw } ∧
    ∀ o, ¬ (0x008 ≤ o ∧ o < 0x00C) → ¬ (0x100 ≤ o ∧ o < 0x1F0) → ¬ (0x200 ≤ o ∧ o < 0x2F0) →
      readByte t o = readByte s o

/-- 10_state R32, R41, R44, R45: no command, whatever its word, writes CTRL, GFOP, RKIN or KEY. -/
def Obligations.CommandsKeepHostRegisters : Prop :=
  ∀ v s t, execute v s = .next t → t.ctrl = s.ctrl ∧ t.gfop = s.gfop ∧ t.rkin = s.rkin ∧ t.key = s.key

/-- 10_state R38, R53: an event that is neither a CMD write of 32 bits nor reset, a bus error among them, writes neither
ERR nor KEYED nor any result of a command, and emits nothing. -/
def Obligations.OnlyCommandsWriteResults : Prop :=
  ∀ s t e rest, s.pending = e :: rest → step s = .next t → e ≠ .reset → (∀ v, ¬ IssuesCommand e v) →
    t.status = s.status ∧ t.gfres = s.gfres ∧ t.w = s.w ∧ t.dw = s.dw ∧ t.trace = s.trace

/-! ### The register window -/

/-- 20_memory R63: the unmapped offsets, and that a naturally aligned access lies entirely in mapped bytes or entirely
in unmapped bytes; an access that touches an unmapped byte is a bus error, of reason unmapped where it is aligned
(R66, R67). -/
def Obligations.UnmappedOffsetsExactly : Prop :=
  (∀ o < 4096, mapped o = false ↔ UnmappedOffset o) ∧
  (∀ off n, n ∈ [1, 2, 4] → off % n = 0 → (∀ j < n, mapped (off + j) = true) ∨ ∀ j < n, mapped (off + j) = false) ∧
  ∀ s off n v j, j < n → mapped (off + j) = false →
    (∃ r, busRead s off n = .error r) ∧ (∃ r, busWrite s off n v = .fault r) ∧
    (n ∈ [1, 2, 4] → off % n = 0 → busRead s off n = .error .unmapped ∧ busWrite s off n v = .fault .unmapped)

/-- 60_exceptions R237, 20_memory R66 to R69: an access of a bad size, a misaligned one, one that touches an unmapped
offset and a sub-word write to CMD get an error response of the reason that applies and change nothing. Every other read
is answered with the value BusRead gives, and changes nothing else; every other write is what BusWrite does, answered
after it (R73, R75). That the response is an entry of a list in State, and the step a next state, is the model's reading
(logs 2 and 3). -/
def Obligations.BusErrorsHaveNoEffect : Prop :=
  ∀ s (off : BitVec 12) n rest,
    (s.pending = .read off n :: rest →
      (¬ GoodAccess off.toNat n → ∃ r, ReasonOfError off.toNat n r ∧
        step s = .next { s with pending := rest, responses := s.responses ++ [.error r] }) ∧
      (GoodAccess off.toNat n → ∃ v, busRead s off.toNat n = .ok v ∧
        step s = .next { s with pending := rest, responses := s.responses ++ [.data n v] })) ∧
    ∀ v, s.pending = .write off n v :: rest →
      (¬ GoodAccess off.toNat n ∨ (0x004 ≤ off.toNat ∧ off.toNat < 0x008 ∧ n ≠ 4) →
        ∃ r, ReasonOfError off.toNat n r ∧
          step s = .next { s with pending := rest, responses := s.responses ++ [.error r] }) ∧
      (GoodAccess off.toNat n → ¬ (0x004 ≤ off.toNat ∧ off.toNat < 0x008 ∧ n ≠ 4) →
        ∃ t, busWrite { s with pending := rest } off.toNat n v = .next t ∧ t.responses = s.responses ∧
          step s = .next { t with responses := s.responses ++ [.written] })

/-- 20_memory R64, R66: a good read returns its lanes little-endian, the lanes above the size being 0 (log 10). -/
def Obligations.ReadsReturnLittleEndianLanes : Prop :=
  ∀ s off n, GoodAccess off n → ∃ v, busRead s off n = .ok v ∧
    (∀ j < n, v.extractLsb' (8 * j) 8 = readByte s (off + j)) ∧ v.toNat < 2 ^ (8 * n)

/-- 20_memory R67, R70, R72: a good write outside CMD completes, sets exactly the bytes it moves, each by its access
class, and leaves every other byte as it was. -/
def Obligations.WritesSetExactlyTheirBytes : Prop :=
  ∀ s off n v, GoodAccess off n → ¬ (0x004 ≤ off ∧ off < 0x008) → ∃ t, busWrite s off n v = .next t ∧
    (∀ j < n, readByte t (off + j) = byteAfterWrite (off + j) (v.extractLsb' (8 * j) 8) (readByte s (off + j))) ∧
    ∀ o, ¬ (off ≤ o ∧ o < off + n) → readByte t o = readByte s o

/-- 10_state R32, R37, R41, R42, 20_memory R69: the words the host reads at CTRL, CMD, STATUS, GFOP and GFRES, with the
codes of STATUS.ERR that 60_exceptions R230 gives. -/
def Obligations.RegisterWordsRead : Prop :=
  [ErrCode.ok, .config, .platform, .noKey, .illegal, .operand].map ErrCode.code = [0#4, 1#4, 2#4, 3#4, 4#4, 5#4] ∧
  ∀ s, ∃ ctrl status gfop gfres,
    busRead s 0x000 4 = .ok ctrl ∧
      ctrl.toNat = s.ctrl.traceEn.toNat + 2 * s.ctrl.bo.toNat + 2 ^ 8 * s.ctrl.keylen.toNat ∧
    busRead s 0x004 4 = .ok 0#32 ∧
    busRead s 0x008 4 = .ok status ∧
      status.toNat = s.status.err.code.toNat + 2 ^ 8 * s.status.keyed.toNat + 2 ^ 16 * s.status.nk.toNat +
        2 ^ 24 * s.status.nr.toNat ∧
    busRead s 0x010 4 = .ok gfop ∧ gfop.toNat = s.gfop.a.toNat + 2 ^ 8 * s.gfop.b.toNat ∧
    busRead s 0x014 4 = .ok gfres ∧ gfres.toNat = s.gfres.toNat

/-- 20_memory R61, R62: where the byte arrays and the schedule windows lie. -/
def Obligations.ByteArraysInTheWindow : Prop :=
  ∀ s, (∀ (k : Nat) (_ : k < 16), readByte s (0x020 + k) = s.state[k] ∧ readByte s (0x030 + k) = s.rkin[k]) ∧
    (∀ (k : Nat) (_ : k < 32), readByte s (0x040 + k) = s.key[k]) ∧
    ∀ j < 240, readByte s (0x100 + j) = Memory.read s.w j ∧ readByte s (0x200 + j) = Memory.read s.dw j

/-! ### Parameters -/

/-- 20_memory R60, for every BASE the platform may choose: BASE is 4096-byte aligned, the host address `BASE + off`
reaches offset `off`, and an address outside the window does not reach the block (log 6). -/
def Obligations.HostAddressesReachTheWindow : Prop :=
  Config.base % 4096 = 0 ∧
  (∀ s (off : BitVec 12) n v,
    hostRead s (Config.base + off.toNat) n = { s with pending := s.pending ++ [.read off n] } ∧
    hostWrite s (Config.base + off.toNat) n v = { s with pending := s.pending ++ [.write off n v] }) ∧
  ∀ s addr n v, addr < Config.base ∨ Config.base + 4096 ≤ addr → hostRead s addr n = s ∧ hostWrite s addr n v = s

/-- 70_reset R272, for every latency function: how long a command takes does not depend on the values held in STATE,
RKIN, KEY, GFOP, W or DW. That LAT is given the NK the command leaves is the model's reading (log 7). -/
def Obligations.LatencyIgnoresData : Prop :=
  ∀ v s t, s.ctrl = t.ctrl → s.status = t.status → commandLatency v s = commandLatency v t
end

