-- ==== Sys2Proof/Laws/State.lean ====
section
/-! SUPPORT. What each register update leaves in each field of State: one lemma per field per update, so that no later
proof unfolds a record update. -/
namespace Sys2Proof.Machine

/-! ### setErr -/

@[simp] theorem State.setErr_ctrl (s : State) (e : ErrCode) : (s.setErr e).ctrl = s.ctrl := rfl
@[simp] theorem State.setErr_status (s : State) (e : ErrCode) : (s.setErr e).status = { s.status with err := e } := rfl
@[simp] theorem State.setErr_gfop (s : State) (e : ErrCode) : (s.setErr e).gfop = s.gfop := rfl
@[simp] theorem State.setErr_gfres (s : State) (e : ErrCode) : (s.setErr e).gfres = s.gfres := rfl
@[simp] theorem State.setErr_state (s : State) (e : ErrCode) : (s.setErr e).state = s.state := rfl
@[simp] theorem State.setErr_rkin (s : State) (e : ErrCode) : (s.setErr e).rkin = s.rkin := rfl
@[simp] theorem State.setErr_key (s : State) (e : ErrCode) : (s.setErr e).key = s.key := rfl
@[simp] theorem State.setErr_w (s : State) (e : ErrCode) : (s.setErr e).w = s.w := rfl
@[simp] theorem State.setErr_dw (s : State) (e : ErrCode) : (s.setErr e).dw = s.dw := rfl
@[simp] theorem State.setErr_trace (s : State) (e : ErrCode) : (s.setErr e).trace = s.trace := rfl
@[simp] theorem State.setErr_pending (s : State) (e : ErrCode) : (s.setErr e).pending = s.pending := rfl
@[simp] theorem State.setErr_responses (s : State) (e : ErrCode) : (s.setErr e).responses = s.responses := rfl

/-! ### setR -/

@[simp] theorem State.setR_ctrl (s : State) (r : Byte) : (s.setR r).ctrl = s.ctrl := rfl
@[simp] theorem State.setR_status (s : State) (r : Byte) : (s.setR r).status = s.status := rfl
@[simp] theorem State.setR_gfop (s : State) (r : Byte) : (s.setR r).gfop = s.gfop := rfl
@[simp] theorem State.setR_gfres (s : State) (r : Byte) : (s.setR r).gfres = r := rfl
@[simp] theorem State.setR_state (s : State) (r : Byte) : (s.setR r).state = s.state := rfl
@[simp] theorem State.setR_rkin (s : State) (r : Byte) : (s.setR r).rkin = s.rkin := rfl
@[simp] theorem State.setR_key (s : State) (r : Byte) : (s.setR r).key = s.key := rfl
@[simp] theorem State.setR_w (s : State) (r : Byte) : (s.setR r).w = s.w := rfl
@[simp] theorem State.setR_dw (s : State) (r : Byte) : (s.setR r).dw = s.dw := rfl
@[simp] theorem State.setR_trace (s : State) (r : Byte) : (s.setR r).trace = s.trace := rfl
@[simp] theorem State.setR_pending (s : State) (r : Byte) : (s.setR r).pending = s.pending := rfl
@[simp] theorem State.setR_responses (s : State) (r : Byte) : (s.setR r).responses = s.responses := rfl

/-! ### setState -/

@[simp] theorem State.setState_ctrl (s : State) (x : Block) : (s.setState x).ctrl = s.ctrl := rfl
@[simp] theorem State.setState_status (s : State) (x : Block) : (s.setState x).status = s.status := rfl
@[simp] theorem State.setState_gfop (s : State) (x : Block) : (s.setState x).gfop = s.gfop := rfl
@[simp] theorem State.setState_gfres (s : State) (x : Block) : (s.setState x).gfres = s.gfres := rfl
@[simp] theorem State.setState_state (s : State) (x : Block) : (s.setState x).state = x := rfl
@[simp] theorem State.setState_rkin (s : State) (x : Block) : (s.setState x).rkin = s.rkin := rfl
@[simp] theorem State.setState_key (s : State) (x : Block) : (s.setState x).key = s.key := rfl
@[simp] theorem State.setState_w (s : State) (x : Block) : (s.setState x).w = s.w := rfl
@[simp] theorem State.setState_dw (s : State) (x : Block) : (s.setState x).dw = s.dw := rfl
@[simp] theorem State.setState_trace (s : State) (x : Block) : (s.setState x).trace = s.trace := rfl
@[simp] theorem State.setState_pending (s : State) (x : Block) : (s.setState x).pending = s.pending := rfl
@[simp] theorem State.setState_responses (s : State) (x : Block) : (s.setState x).responses = s.responses := rfl

/-! ### setSchedules -/

@[simp] theorem State.setSchedules_ctrl (s : State) (b : Bool) (nk nr : BitVec 4) (w dw : Memory) : (s.setSchedules b nk nr w dw).ctrl = s.ctrl := rfl
@[simp] theorem State.setSchedules_status (s : State) (b : Bool) (nk nr : BitVec 4) (w dw : Memory) : (s.setSchedules b nk nr w dw).status = { s.status with keyed := b, nk := nk, nr := nr } := rfl
@[simp] theorem State.setSchedules_gfop (s : State) (b : Bool) (nk nr : BitVec 4) (w dw : Memory) : (s.setSchedules b nk nr w dw).gfop = s.gfop := rfl
@[simp] theorem State.setSchedules_gfres (s : State) (b : Bool) (nk nr : BitVec 4) (w dw : Memory) : (s.setSchedules b nk nr w dw).gfres = s.gfres := rfl
@[simp] theorem State.setSchedules_state (s : State) (b : Bool) (nk nr : BitVec 4) (w dw : Memory) : (s.setSchedules b nk nr w dw).state = s.state := rfl
@[simp] theorem State.setSchedules_rkin (s : State) (b : Bool) (nk nr : BitVec 4) (w dw : Memory) : (s.setSchedules b nk nr w dw).rkin = s.rkin := rfl
@[simp] theorem State.setSchedules_key (s : State) (b : Bool) (nk nr : BitVec 4) (w dw : Memory) : (s.setSchedules b nk nr w dw).key = s.key := rfl
@[simp] theorem State.setSchedules_w (s : State) (b : Bool) (nk nr : BitVec 4) (w dw : Memory) : (s.setSchedules b nk nr w dw).w = w := rfl
@[simp] theorem State.setSchedules_dw (s : State) (b : Bool) (nk nr : BitVec 4) (w dw : Memory) : (s.setSchedules b nk nr w dw).dw = dw := rfl
@[simp] theorem State.setSchedules_trace (s : State) (b : Bool) (nk nr : BitVec 4) (w dw : Memory) : (s.setSchedules b nk nr w dw).trace = s.trace := rfl
@[simp] theorem State.setSchedules_pending (s : State) (b : Bool) (nk nr : BitVec 4) (w dw : Memory) : (s.setSchedules b nk nr w dw).pending = s.pending := rfl
@[simp] theorem State.setSchedules_responses (s : State) (b : Bool) (nk nr : BitVec 4) (w dw : Memory) : (s.setSchedules b nk nr w dw).responses = s.responses := rfl

/-! ### setPending -/

@[simp] theorem State.setPending_ctrl (s : State) (p : List BusEvent) : (s.setPending p).ctrl = s.ctrl := rfl
@[simp] theorem State.setPending_status (s : State) (p : List BusEvent) : (s.setPending p).status = s.status := rfl
@[simp] theorem State.setPending_gfop (s : State) (p : List BusEvent) : (s.setPending p).gfop = s.gfop := rfl
@[simp] theorem State.setPending_gfres (s : State) (p : List BusEvent) : (s.setPending p).gfres = s.gfres := rfl
@[simp] theorem State.setPending_state (s : State) (p : List BusEvent) : (s.setPending p).state = s.state := rfl
@[simp] theorem State.setPending_rkin (s : State) (p : List BusEvent) : (s.setPending p).rkin = s.rkin := rfl
@[simp] theorem State.setPending_key (s : State) (p : List BusEvent) : (s.setPending p).key = s.key := rfl
@[simp] theorem State.setPending_w (s : State) (p : List BusEvent) : (s.setPending p).w = s.w := rfl
@[simp] theorem State.setPending_dw (s : State) (p : List BusEvent) : (s.setPending p).dw = s.dw := rfl
@[simp] theorem State.setPending_trace (s : State) (p : List BusEvent) : (s.setPending p).trace = s.trace := rfl
@[simp] theorem State.setPending_pending (s : State) (p : List BusEvent) : (s.setPending p).pending = p := rfl
@[simp] theorem State.setPending_responses (s : State) (p : List BusEvent) : (s.setPending p).responses = s.responses := rfl

/-! ### respond -/

@[simp] theorem State.respond_ctrl (s : State) (r : Response) : (s.respond r).ctrl = s.ctrl := rfl
@[simp] theorem State.respond_status (s : State) (r : Response) : (s.respond r).status = s.status := rfl
@[simp] theorem State.respond_gfop (s : State) (r : Response) : (s.respond r).gfop = s.gfop := rfl
@[simp] theorem State.respond_gfres (s : State) (r : Response) : (s.respond r).gfres = s.gfres := rfl
@[simp] theorem State.respond_state (s : State) (r : Response) : (s.respond r).state = s.state := rfl
@[simp] theorem State.respond_rkin (s : State) (r : Response) : (s.respond r).rkin = s.rkin := rfl
@[simp] theorem State.respond_key (s : State) (r : Response) : (s.respond r).key = s.key := rfl
@[simp] theorem State.respond_w (s : State) (r : Response) : (s.respond r).w = s.w := rfl
@[simp] theorem State.respond_dw (s : State) (r : Response) : (s.respond r).dw = s.dw := rfl
@[simp] theorem State.respond_trace (s : State) (r : Response) : (s.respond r).trace = s.trace := rfl
@[simp] theorem State.respond_pending (s : State) (r : Response) : (s.respond r).pending = s.pending := rfl
@[simp] theorem State.respond_responses (s : State) (r : Response) : (s.respond r).responses = s.responses ++ [r] := rfl

/-! ### takeRun -/

@[simp] theorem State.takeRun_ctrl (s : State) (run : EngineRun) : (s.takeRun run).ctrl = s.ctrl := rfl
@[simp] theorem State.takeRun_status (s : State) (run : EngineRun) : (s.takeRun run).status = s.status := rfl
@[simp] theorem State.takeRun_gfop (s : State) (run : EngineRun) : (s.takeRun run).gfop = s.gfop := rfl
@[simp] theorem State.takeRun_gfres (s : State) (run : EngineRun) : (s.takeRun run).gfres = s.gfres := rfl
@[simp] theorem State.takeRun_state (s : State) (run : EngineRun) : (s.takeRun run).state = run.block := rfl
@[simp] theorem State.takeRun_rkin (s : State) (run : EngineRun) : (s.takeRun run).rkin = s.rkin := rfl
@[simp] theorem State.takeRun_key (s : State) (run : EngineRun) : (s.takeRun run).key = s.key := rfl
@[simp] theorem State.takeRun_w (s : State) (run : EngineRun) : (s.takeRun run).w = s.w := rfl
@[simp] theorem State.takeRun_dw (s : State) (run : EngineRun) : (s.takeRun run).dw = s.dw := rfl
@[simp] theorem State.takeRun_trace (s : State) (run : EngineRun) : (s.takeRun run).trace = if s.ctrl.traceEn then s.trace ++ run.log else s.trace := rfl
@[simp] theorem State.takeRun_pending (s : State) (run : EngineRun) : (s.takeRun run).pending = s.pending := rfl
@[simp] theorem State.takeRun_responses (s : State) (run : EngineRun) : (s.takeRun run).responses = s.responses := rfl

/-! ### The reset event -/

@[simp] theorem resetEvent_pending (s : State) : (resetEvent s).pending = s.pending := rfl
@[simp] theorem resetEvent_responses (s : State) : (resetEvent s).responses = s.responses := rfl

end Sys2Proof.Machine
end

