-- ==== Sys2Proof/Laws/Ops.lean ====
section
/-! SUPPORT. What the shared endings and checks of a command can do, said once: if the operation answers a next state,
then one of these cases holds. -/
namespace Sys2Proof.Machine

@[simp] theorem fail_eq (e : ErrCode) (s : State) : fail e s = .next (s.setErr e) := rfl
@[simp] theorem done_eq (s : State) : done s = .next (s.setErr .ok) := rfl

theorem command_of_bo {body : State → Result} {s : State} (h : s.ctrl.bo = true) :
    command body s = .next (s.setErr .platform) := by simp [command, h]

theorem command_of_le {body : State → Result} {s : State} (h : s.ctrl.bo = false) :
    command body s = body s := by simp [command, h]

/-- A command fails with PLATFORM or does what its body does. -/
theorem command_cases {body : State → Result} {s t : State} (h : command body s = .next t) :
    (s.ctrl.bo = true ∧ t = s.setErr .platform) ∨ (s.ctrl.bo = false ∧ body s = .next t) := by
  cases hb : s.ctrl.bo with
  | false => exact .inr ⟨rfl, by rwa [command_of_le hb] at h⟩
  | true =>
    rw [command_of_bo hb] at h
    exact .inl ⟨rfl, by injection h with h; exact h.symm⟩

theorem keyedCommand_of_bo {body : State → Result} {s : State} (h : s.ctrl.bo = true) :
    keyedCommand body s = .next (s.setErr .platform) := command_of_bo h

theorem keyedCommand_of_unkeyed {body : State → Result} {s : State} (h : s.ctrl.bo = false)
    (hk : s.status.keyed = false) : keyedCommand body s = .next (s.setErr .noKey) := by
  simp [keyedCommand, command_of_le h, hk]

theorem keyedCommand_of_keyed {body : State → Result} {s : State} (h : s.ctrl.bo = false)
    (hk : s.status.keyed = true) : keyedCommand body s = body s := by
  simp [keyedCommand, command_of_le h, hk]

/-- A schedule-dependent command fails with PLATFORM or NO_KEY, or does what its body does. -/
theorem keyedCommand_cases {body : State → Result} {s t : State} (h : keyedCommand body s = .next t) :
    (s.ctrl.bo = true ∧ t = s.setErr .platform) ∨
    (s.ctrl.bo = false ∧ s.status.keyed = false ∧ t = s.setErr .noKey) ∨
    (s.ctrl.bo = false ∧ s.status.keyed = true ∧ body s = .next t) := by
  rcases command_cases h with h | ⟨hb, h⟩
  · exact .inl h
  · cases hk : s.status.keyed with
    | false => exact .inr (.inl ⟨hb, rfl, by simpa [hk] using h.symm⟩)
    | true => exact .inr (.inr ⟨hb, rfl, by simpa [hk] using h⟩)

/-- A command that uses ROUND fails with PLATFORM, NO_KEY or OPERAND, or does what its body does. -/
theorem roundCommand_cases {round : Nat} {body : State → Result} {s t : State}
    (h : roundCommand round body s = .next t) :
    (s.ctrl.bo = true ∧ t = s.setErr .platform) ∨
    (s.ctrl.bo = false ∧ s.status.keyed = false ∧ t = s.setErr .noKey) ∨
    (s.ctrl.bo = false ∧ s.status.keyed = true ∧ s.status.nr.toNat < round ∧ t = s.setErr .operand) ∨
    (s.ctrl.bo = false ∧ s.status.keyed = true ∧ round ≤ s.status.nr.toNat ∧ body s = .next t) := by
  rcases keyedCommand_cases h with h | h | ⟨hb, hk, h⟩
  · exact .inl h
  · exact .inr (.inl h)
  · by_cases hr : s.status.nr.toNat < round
    · exact .inr (.inr (.inl ⟨hb, hk, hr, by simpa [hr] using h.symm⟩))
    · exact .inr (.inr (.inr ⟨hb, hk, by omega, by simpa [hr] using h⟩))

theorem roundCommand_of_round {round : Nat} {body : State → Result} {s : State} (h : s.ctrl.bo = false)
    (hk : s.status.keyed = true) (hr : round ≤ s.status.nr.toNat) : roundCommand round body s = body s := by
  simp [roundCommand, keyedCommand_of_keyed h hk, Nat.not_lt.2 hr]

/-- A command whose body answers a next state answers one. -/
theorem command_answers {body : State → Result} (s : State) (h : ∃ t, body s = .next t) :
    ∃ t, command body s = .next t := by
  cases hb : s.ctrl.bo with
  | false => rwa [command_of_le hb]
  | true => exact ⟨_, command_of_bo hb⟩

theorem keyedCommand_answers {body : State → Result} (s : State) (h : ∃ t, body s = .next t) :
    ∃ t, keyedCommand body s = .next t := by
  refine command_answers s ?_
  cases hk : s.status.keyed with
  | false => exact ⟨s.setErr .noKey, by simp⟩
  | true => simpa [hk] using h

theorem roundCommand_answers {round : Nat} {body : State → Result} (s : State) (h : ∃ t, body s = .next t) :
    ∃ t, roundCommand round body s = .next t := by
  refine keyedCommand_answers s ?_
  by_cases hr : s.status.nr.toNat < round
  · exact ⟨s.setErr .operand, by simp [hr]⟩
  · simpa [hr] using h

/-! ### What holds of every ending holds of the command -/

theorem next_inj {s t : State} (h : (Host.Outcome.next s : Result) = .next t) : s = t := by injection h

/-- A relation between the state before and after that every error ending and every ending of the body meets, the
command meets. -/
theorem command_rel {P : State → State → Prop} {body : State → Result} {s t : State} (he : ∀ e, P s (s.setErr e))
    (hb : ∀ t, body s = .next t → P s t) (h : command body s = .next t) : P s t := by
  rcases command_cases h with ⟨-, rfl⟩ | ⟨-, h⟩
  · exact he _
  · exact hb _ h

theorem keyedCommand_rel {P : State → State → Prop} {body : State → Result} {s t : State} (he : ∀ e, P s (s.setErr e))
    (hb : ∀ t, body s = .next t → P s t) (h : keyedCommand body s = .next t) : P s t := by
  rcases keyedCommand_cases h with ⟨-, rfl⟩ | ⟨-, -, rfl⟩ | ⟨-, -, h⟩
  · exact he _
  · exact he _
  · exact hb _ h

theorem roundCommand_rel {P : State → State → Prop} {r : Nat} {body : State → Result} {s t : State}
    (he : ∀ e, P s (s.setErr e)) (hb : ∀ t, body s = .next t → P s t) (h : roundCommand r body s = .next t) :
    P s t := by
  rcases roundCommand_cases h with ⟨-, rfl⟩ | ⟨-, -, rfl⟩ | ⟨-, -, -, rfl⟩ | ⟨-, -, -, h⟩
  · exact he _
  · exact he _
  · exact he _
  · exact hb _ h

end Sys2Proof.Machine
end

