-- ==== Sys2Proof/Laws/Engines.lean ====
section
/-! SUPPORT. The engines' steps and loops: the block a step leaves, the records the hook has been given. -/
namespace Sys2Proof.Machine

@[simp] theorem runStep_block (e : Engine) (r : Nat) (st : TraceStep) (f : Block → Block) (run : EngineRun) :
    (runStep e r st f run).block = f run.block := rfl

@[simp] theorem runStep_log (e : Engine) (r : Nat) (st : TraceStep) (f : Block → Block) (run : EngineRun) :
    (runStep e r st f run).log =
      run.log ++ [{ engine := e, round := BitVec.ofNat 4 r, step := st, data := f run.block }] := rfl

@[simp] theorem roundsUp_length (nr : Nat) : (roundsUp nr).length = nr - 1 := by simp [roundsUp]

theorem mem_roundsUp {nr r : Nat} : r ∈ roundsUp nr ↔ 1 ≤ r ∧ r ≤ nr - 1 := by
  simp [roundsUp, List.mem_range']
  constructor
  · rintro ⟨i, hi, rfl⟩; omega
  · rintro ⟨h1, h2⟩; exact ⟨r - 1, by omega, by omega⟩

theorem mem_roundsDown {nr r : Nat} : r ∈ roundsDown nr ↔ 1 ≤ r ∧ r ≤ nr - 1 := by
  rw [roundsDown, List.mem_reverse, mem_roundsUp]

/-- One round of the forward cipher, on the block alone. -/
theorem cipherRound_block (rk : Nat → Block) (run : EngineRun) (r : Nat) :
    (cipherRound rk run r).block = addRoundKey (mixColumns (shiftRows (subBytes run.block))) (rk r) := rfl

theorem invCipherRound_block (rk : Nat → Block) (run : EngineRun) (r : Nat) :
    (invCipherRound rk run r).block = invMixColumns (addRoundKey (invSubBytes (invShiftRows run.block)) (rk r)) := rfl

theorem eqInvCipherRound_block (dk : Nat → Block) (run : EngineRun) (r : Nat) :
    (eqInvCipherRound dk run r).block = addRoundKey (invMixColumns (invShiftRows (invSubBytes run.block))) (dk r) := rfl

/-- The block of a loop is a loop on blocks: the hook changes no block (44_cipher_engines R200). -/
theorem foldl_block {f : EngineRun → Nat → EngineRun} {g : Block → Nat → Block}
    (h : ∀ run r, (f run r).block = g run.block r) (l : List Nat) (run : EngineRun) :
    (l.foldl f run).block = l.foldl g run.block := by
  induction l generalizing run with
  | nil => rfl
  | cons r l ih => rw [List.foldl_cons, ih, h, List.foldl_cons]

theorem execCipher_answers (s : State) : ∃ t, execCipher s = .next t := by
  rw [execCipher]; exact keyedCommand_answers s ⟨_, rfl⟩

theorem execInvCipher_answers (s : State) : ∃ t, execInvCipher s = .next t := by
  rw [execInvCipher]; exact keyedCommand_answers s ⟨_, rfl⟩

theorem execEqInvCipher_answers (s : State) : ∃ t, execEqInvCipher s = .next t := by
  rw [execEqInvCipher]; exact keyedCommand_answers s ⟨_, rfl⟩


end Sys2Proof.Machine
end

