-- ==== Sys2Proof/Laws/Bytes.lean ====
section
/-! SUPPORT. What each function on byte arrays holds at each index, and the linearity of the field operations. -/
namespace Sys2Proof.Machine

@[simp] theorem xorBytes_getElem {n : Nat} (x y : Bytes n) (k : Nat) (h : k < n) :
    (xorBytes x y)[k] = x[k] ^^^ y[k] := by simp [xorBytes]

@[simp] theorem mapBytes_getElem {n : Nat} (f : Byte → Byte) (x : Bytes n) (k : Nat) (h : k < n) :
    (mapBytes f x)[k] = f x[k] := by simp [mapBytes]

@[simp] theorem subBytes_getElem (s : Block) (k : Nat) (h : k < 16) : (subBytes s)[k] = sbox s[k] := by
  simp [subBytes]

@[simp] theorem invSubBytes_getElem (s : Block) (k : Nat) (h : k < 16) : (invSubBytes s)[k] = invSbox s[k] := by
  simp [invSubBytes]

@[simp] theorem addRoundKey_getElem (s r : Block) (k : Nat) (h : k < 16) : (addRoundKey s r)[k] = s[k] ^^^ r[k] := by
  simp [addRoundKey]

/-- Byte k of a shifted state, by index. -/
theorem shiftRows_getElem (s : Block) (k : Nat) (h : k < 16) :
    (shiftRows s)[k] = s[k % 4 + 4 * ((k / 4 + k % 4) % 4)]'(by omega) := by simp [shiftRows]

theorem invShiftRows_getElem (s : Block) (k : Nat) (h : k < 16) :
    (invShiftRows s)[k] = s[k % 4 + 4 * ((k / 4 + 4 - k % 4) % 4)]'(by omega) := by simp [invShiftRows]

/-- Byte k of a mixed state: its row of the matrix times its column of the state. -/
theorem mixWith_getElem (m : Vector (Bytes 4) 4) (s : Block) (k : Nat) (h : k < 16) :
    (mixWith m s)[k] = mixByte (m[k % 4]'(by omega)) s (k / 4) (by omega) := by simp [mixWith]

@[simp] theorem roundKeyOf_getElem (m : Memory) (r k : Nat) (h : k < 16) :
    (roundKeyOf m r)[k] = Memory.read m (16 * r + k) := by simp [roundKeyOf]

@[simp] theorem keyPrefix_getElem (s : State) (n : Nat) (h : n ≤ 32) (k : Nat) (hk : k < n) :
    (s.keyPrefix n h)[k] = s.key[k] := by simp [State.keyPrefix]

/-- Adding the same byte twice changes nothing. -/
theorem xorBytes_cancel {n : Nat} (x y : Bytes n) : xorBytes (xorBytes x y) y = x := by
  ext k h
  simp

/-! ### The field operations are linear -/

theorem xtime_gfAdd (b c : Byte) : xtime (gfAdd b c) = gfAdd (xtime b) (xtime c) := by
  simp only [xtime, gfAdd, BitVec.getLsbD_xor, BitVec.shiftLeft_xor_distrib]
  cases b.getLsbD 7 <;> cases c.getLsbD 7 <;> simp only [Bool.xor_false, Bool.xor_true, Bool.not_true, Bool.not_false,
    if_true, Bool.false_eq_true, if_false]
  · ac_rfl
  · ac_rfl
  · ac_nf
    simp

/-- The loop of `gfMul` run on two second operands and two sums, added. -/
theorem gfMulStep_add (a : Byte) (p q b c : Byte) (i : Nat) :
    gfMulStep a (gfAdd p q, gfAdd b c) i =
      (gfAdd (gfMulStep a (p, b) i).1 (gfMulStep a (q, c) i).1, gfAdd (gfMulStep a (p, b) i).2 (gfMulStep a (q, c) i).2) := by
  simp only [gfMulStep, xtime_gfAdd]
  split <;> simp only [gfAdd, Prod.mk.injEq, and_true]
  ac_rfl

theorem gfMulStep_foldl_add (a : Byte) (l : List Nat) (p q b c : Byte) :
    (l.foldl (gfMulStep a) (gfAdd p q, gfAdd b c)) =
      (gfAdd (l.foldl (gfMulStep a) (p, b)).1 (l.foldl (gfMulStep a) (q, c)).1,
       gfAdd (l.foldl (gfMulStep a) (p, b)).2 (l.foldl (gfMulStep a) (q, c)).2) := by
  induction l generalizing p q b c with
  | nil => rfl
  | cons i l ih =>
    simp only [List.foldl_cons]
    rw [gfMulStep_add, ih]

end Sys2Proof.Machine
end

