-- ==== Sys2Proof/Laws/Memory.lean ====
section
/-! SUPPORT. The laws of the schedule memories: read after write, the canonical form kept by every operation, and what
a filled memory reads as. -/
namespace Sys2Proof.Machine

theorem Memory.read_nil (x : Nat) : Memory.read [] x = Memory.unlisted := rfl

theorem Memory.read_cons (c : Host.Cell) (m : Memory) (x : Nat) :
    Memory.read (c :: m) x = if c.1 = x then c.2 else Memory.read m x := rfl

/-- An index above which every cell lies reads as unlisted. -/
theorem Memory.read_of_lt (m : Memory) (x : Nat) (h : ∀ c ∈ m, x < c.1) : Memory.read m x = Memory.unlisted := by
  induction m with
  | nil => rfl
  | cons c m ih =>
    have hc := h c (by simp)
    rw [read_cons, if_neg (by omega), ih fun d hd => h d (by simp [hd])]

/-- An index with no cell reads as unlisted. -/
theorem Memory.read_of_not_mem (m : Memory) (x : Nat) (h : ∀ c ∈ m, c.1 ≠ x) : Memory.read m x = Memory.unlisted := by
  induction m with
  | nil => rfl
  | cons c m ih => rw [read_cons, if_neg (h c (by simp)), ih fun d hd => h d (by simp [hd])]

/-- Read after write: the written index gives the written byte and every other index is as before. -/
theorem Memory.read_write (m : Memory) (h : m.wf) (x : Nat) (b : Byte) (y : Nat) :
    Memory.read (Memory.write m x b) y = if y = x then b else Memory.read m y := by
  induction m with
  | nil => by_cases hb : b = Memory.unlisted <;> by_cases hy : x = y <;>
      simp [Memory.write, Memory.read, hb, hy, eq_comm (a := y)]
  | cons c m ih =>
    obtain ⟨a, v⟩ := c
    have hs := List.pairwise_cons.1 h.1
    have hm : Memory.wf m := ⟨hs.2, fun d hd => h.2 d (by simp [hd])⟩
    have above : ∀ d ∈ m, a < d.1 := fun d hd => hs.1 d hd
    simp only [Memory.write]
    split
    · rename_i hx
      have none : Memory.read ((a, v) :: m) x = Memory.unlisted :=
        Memory.read_of_lt _ _ (by
          intro d hd
          rcases List.mem_cons.1 hd with rfl | hd
          · exact hx
          · have := above d hd; omega)
      split
      · rename_i hb
        by_cases hy : y = x
        · rw [if_pos hy, hy, none, hb]
        · rw [if_neg hy]
      · rw [read_cons]
        by_cases hy : y = x
        · simp [hy]
        · rw [if_neg hy, if_neg (fun e => hy e.symm)]
    · split
      · rename_i hx
        subst hx
        have none : Memory.read m x = Memory.unlisted := Memory.read_of_lt m x above
        split
        · rename_i hb
          by_cases hy : y = x
          · rw [if_pos hy, hy, none, hb]
          · rw [if_neg hy, read_cons, if_neg (fun e => hy e.symm)]
        · rw [read_cons, read_cons]
          by_cases hy : y = x
          · simp [hy]
          · rw [if_neg hy, if_neg (fun e => hy e.symm), if_neg (fun e => hy e.symm)]
      · rename_i hx
        rw [read_cons, read_cons, ih hm]
        by_cases hy : y = x
        · rw [if_pos hy, if_pos hy, if_neg (by simpa using by omega)]
        · rw [if_neg hy, if_neg hy]

/-- The cells after a write: those of before, or the written one. -/
theorem Memory.mem_write {m : Memory} {x : Nat} {b : Byte} {c : Host.Cell} (h : c ∈ Memory.write m x b) :
    c ∈ m ∨ (c = (x, b) ∧ b ≠ Memory.unlisted) := by
  induction m with
  | nil =>
    simp only [Memory.write] at h
    split at h
    · simp at h
    · exact .inr ⟨by simpa using h, ‹_›⟩
  | cons d m ih =>
    obtain ⟨a, v⟩ := d
    simp only [Memory.write] at h
    split at h
    · split at h
      · exact .inl h
      · rcases List.mem_cons.1 h with rfl | h
        · exact .inr ⟨rfl, ‹_›⟩
        · exact .inl h
    · split at h
      · split at h
        · exact .inl (by simp [h])
        · rcases List.mem_cons.1 h with rfl | h
          · exact .inr ⟨rfl, ‹_›⟩
          · exact .inl (by simp [h])
      · rcases List.mem_cons.1 h with rfl | h
        · exact .inl (by simp)
        · rcases ih h with h | h
          · exact .inl (by simp [h])
          · exact .inr h

/-- A write keeps the canonical form. -/
theorem Memory.wf_write {m : Memory} (h : m.wf) (x : Nat) (b : Byte) : Memory.wf (Memory.write m x b) := by
  refine ⟨?_, fun c hc => ?_⟩
  · induction m with
    | nil => simp only [Memory.write]; split <;> simp
    | cons c m ih =>
      obtain ⟨a, v⟩ := c
      have hs := List.pairwise_cons.1 h.1
      have hm : Memory.wf m := ⟨hs.2, fun d hd => h.2 d (by simp [hd])⟩
      simp only [Memory.write]
      split
      · split
        · exact h.1
        · refine List.pairwise_cons.2 ⟨fun d hd => ?_, h.1⟩
          rcases List.mem_cons.1 hd with rfl | hd
          · assumption
          · have := hs.1 d hd; simp only at this ⊢; omega
      · split
        · split
          · exact hs.2
          · rename_i hx _
            subst hx
            exact List.pairwise_cons.2 ⟨hs.1, hs.2⟩
        · refine List.pairwise_cons.2 ⟨fun d hd => ?_, ih hm⟩
          rcases Memory.mem_write hd with hd | ⟨rfl, -⟩
          · exact hs.1 d hd
          · simp only; omega
  · rcases Memory.mem_write hc with hc | ⟨rfl, hb⟩
    · exact h.2 c hc
    · exact hb

theorem Memory.wf_cleared : Memory.wf Memory.cleared := ⟨List.Pairwise.nil, by simp [Memory.cleared]⟩

/-- Consecutive writes keep the canonical form. -/
theorem Memory.wf_writeFrom {m : Memory} (h : m.wf) (x : Nat) (bs : List Byte) :
    Memory.wf (Memory.writeFrom m x bs) := by
  induction bs generalizing m x with
  | nil => exact h
  | cons b bs ih => exact ih (Memory.wf_write h x b) (x + 1)

/-- What consecutive writes leave at each index. -/
theorem Memory.read_writeFrom {m : Memory} (h : m.wf) (x : Nat) (bs : List Byte) (y : Nat) :
    Memory.read (Memory.writeFrom m x bs) y =
      if x ≤ y ∧ y < x + bs.length then bs.getD (y - x) Memory.unlisted else Memory.read m y := by
  induction bs generalizing m x with
  | nil => simp only [writeFrom, List.length_nil]; rw [if_neg (by omega)]
  | cons b bs ih =>
    rw [writeFrom, ih (Memory.wf_write h x b), Memory.read_write m h, List.length_cons]
    rcases Nat.lt_trichotomy y x with hy | hy | hy
    · rw [if_neg (by omega), if_neg (by omega), if_neg (by omega)]
    · subst hy; rw [if_neg (by omega), if_pos rfl, if_pos (by omega)]; simp
    · obtain ⟨d, rfl⟩ := Nat.exists_eq_add_of_lt hy
      rw [if_neg (by omega : ¬ x + d + 1 = x), show x + d + 1 - (x + 1) = d by omega,
        show x + d + 1 - x = d + 1 by omega, List.getD_cons_succ]
      simp only [show (x + 1 ≤ x + d + 1 ∧ x + d + 1 < x + 1 + bs.length) ↔
        (x ≤ x + d + 1 ∧ x + d + 1 < x + (bs.length + 1)) by omega]

/-- Consecutive writes add no cell outside the range written. -/
theorem Memory.mem_writeFrom {m : Memory} {x : Nat} {bs : List Byte} {c : Host.Cell}
    (h : c ∈ Memory.writeFrom m x bs) : c ∈ m ∨ (x ≤ c.1 ∧ c.1 < x + bs.length) := by
  induction bs generalizing m x with
  | nil => exact .inl h
  | cons b bs ih =>
    rcases ih h with h | ⟨h1, h2⟩
    · rcases Memory.mem_write h with h | ⟨rfl, -⟩
      · exact .inl h
      · exact .inr ⟨Nat.le_refl _, by simp⟩
    · exact .inr ⟨by omega, by simp only [List.length_cons]; omega⟩

/-- A filled memory is in canonical form. -/
theorem Memory.wf_fill (bs : List Byte) : Memory.wf (Memory.fill bs) := Memory.wf_writeFrom Memory.wf_cleared 0 bs

/-- A filled memory reads its bytes, and 0x00 past them. -/
theorem Memory.read_fill (bs : List Byte) (j : Nat) : Memory.read (Memory.fill bs) j = bs.getD j Memory.unlisted := by
  rw [Memory.fill, Memory.read_writeFrom Memory.wf_cleared]
  by_cases h : j < bs.length
  · rw [if_pos (by omega), Nat.sub_zero]
  · rw [if_neg (by omega), List.getD_eq_default _ _ (by omega)]; rfl

/-- The cells of a filled memory lie inside its bytes. -/
theorem Memory.mem_fill {bs : List Byte} {c : Host.Cell} (h : c ∈ Memory.fill bs) : c.1 < bs.length := by
  rcases Memory.mem_writeFrom h with h | h
  · simp [Memory.cleared] at h
  · omega

/-- Equal reads, equal memories: the canonical form has one list per content. -/
theorem Memory.ext_of_wf {m n : Memory} (hm : m.wf) (hn : n.wf) (h : ∀ x, Memory.read m x = Memory.read n x) :
    m = n := by
  induction m generalizing n with
  | nil =>
    cases n with
    | nil => rfl
    | cons c n =>
      have := h c.1
      rw [read_nil, read_cons, if_pos rfl] at this
      exact absurd this.symm (hn.2 c (by simp))
  | cons c m ih =>
    have hsm := List.pairwise_cons.1 hm.1
    have wfm : Memory.wf m := ⟨hsm.2, fun d hd => hm.2 d (by simp [hd])⟩
    have cm := hm.2 c (by simp)
    cases n with
    | nil =>
      have := h c.1
      rw [read_nil, read_cons, if_pos rfl] at this
      exact absurd this cm
    | cons d n =>
      have hsn := List.pairwise_cons.1 hn.1
      have wfn : Memory.wf n := ⟨hsn.2, fun e he => hn.2 e (by simp [he])⟩
      have dn := hn.2 d (by simp)
      have hc := h c.1
      have hd := h d.1
      rw [read_cons, if_pos rfl, read_cons] at hc
      rw [read_cons, read_cons, if_pos rfl] at hd
      have e1 : c.1 = d.1 := by
        rcases Nat.lt_trichotomy c.1 d.1 with lt | eq | gt
        · rw [if_neg (by omega), Memory.read_of_lt n c.1 fun e he => by have := hsn.1 e he; omega] at hc
          exact absurd hc cm
        · exact eq
        · rw [if_neg (by omega), Memory.read_of_lt m d.1 fun e he => by have := hsm.1 e he; omega] at hd
          exact absurd hd.symm dn
      rw [if_pos e1.symm] at hc
      have cd : c = d := Prod.ext e1 hc
      subst cd
      have rest : m = n := ih wfm wfn fun x => by
        have hx := h x
        rw [read_cons, read_cons] at hx
        by_cases e : c.1 = x
        · rw [Memory.read_of_lt m x fun e' he => by have := hsm.1 e' he; omega,
            Memory.read_of_lt n x fun e' he => by have := hsn.1 e' he; omega]
        · rwa [if_neg e, if_neg e] at hx
      rw [rest]

end Sys2Proof.Machine
end

