-- ==== Sys2Proof/Laws/KeySchedule.lean ====
section
/-! SUPPORT. The expander: how many words it makes, which words it never changes, and how a schedule lies in its
memory. -/
namespace Sys2Proof.Machine

theorem KeySize.nk_pos (ks : KeySize) : 0 < ks.nk := by cases ks <;> decide
theorem KeySize.nk_le (ks : KeySize) : ks.nk ≤ 4 * (ks.nr + 1) := by cases ks <;> decide
theorem KeySize.nr_le (ks : KeySize) : ks.nr ≤ 14 := by cases ks <;> decide
theorem KeySize.nr_pos (ks : KeySize) : 0 < ks.nr := by cases ks <;> decide

@[simp] theorem KeySize.nk_toNat (ks : KeySize) : (BitVec.ofNat 4 ks.nk).toNat = ks.nk := by cases ks <;> decide
@[simp] theorem KeySize.nr_toNat (ks : KeySize) : (BitVec.ofNat 4 ks.nr).toNat = ks.nr := by cases ks <;> decide

/-- The key lengths LOAD_KEY accepts are those of the three key sizes. -/
theorem keySizeOfKeylen_eq_some {l : Byte} {ks : KeySize} (h : keySizeOfKeylen l = some ks) :
    l.toNat = 4 * ks.nk := by
  unfold keySizeOfKeylen at h
  split at h <;> cases h <;> simpa [KeySize.nk]

theorem keySizeOfKeylen_of_toNat (ks : KeySize) {l : Byte} (h : l.toNat = 4 * ks.nk) :
    keySizeOfKeylen l = some ks := by
  cases ks <;> simp [KeySize.nk] at h <;> simp [keySizeOfKeylen, h]

theorem keySizeOfKeylen_eq_none {l : Byte} (h16 : l.toNat ≠ 16) (h24 : l.toNat ≠ 24) (h32 : l.toNat ≠ 32) :
    keySizeOfKeylen l = none := by
  unfold keySizeOfKeylen
  split <;> simp_all

@[simp] theorem keyWords_length (ks : KeySize) (k : Bytes (4 * ks.nk)) : (keyWords ks k).length = ks.nk := by
  simp [keyWords]

@[simp] theorem expandWords_length (nk n : Nat) (ws : List Word) :
    (expandWords nk n ws).length = ws.length + n := by
  induction n generalizing ws with
  | zero => rfl
  | succ n ih => rw [expandWords, ih]; simp; omega

/-- "`4*(Nr+1)` words" (43_key_schedule R173). -/
@[simp] theorem keyExpansion_length (ks : KeySize) (k : Bytes (4 * ks.nk)) :
    (keyExpansion ks k).length = 4 * (ks.nr + 1) := by
  rw [keyExpansion, expandWords_length, keyWords_length]
  have := ks.nk_le
  omega

/-- The expander appends: words already made stay. -/
theorem expandWords_getD (nk n : Nat) (ws : List Word) (i : Nat) (h : i < ws.length) (d : Word) :
    (expandWords nk n ws).getD i d = ws.getD i d := by
  induction n generalizing ws with
  | zero => rfl
  | succ n ih =>
    rw [expandWords, ih _ (by simp; omega)]
    simp [List.getD, List.getElem?_append_left h]

/-- Word `i` of an expansion is the one `nextWord` makes from the words before it. -/
theorem expandWords_take (nk n : Nat) (ws : List Word) (i : Nat) (h : ws.length ≤ i) (h' : i < ws.length + n)
    (d : Word) : (expandWords nk n ws).getD i d = nextWord nk ((expandWords nk n ws).take i) := by
  induction n generalizing ws with
  | zero => omega
  | succ n ih =>
    rw [expandWords]
    by_cases hi : i = ws.length
    · subst hi
      rw [expandWords_getD _ _ _ _ (by simp)]
      have pre : ∀ m (us : List Word), (expandWords nk m us).take us.length = us := by
        intro m
        induction m with
        | zero => intro us; simp [expandWords]
        | succ m ihm =>
          intro us
          have := congrArg (List.take us.length) (ihm (us ++ [nextWord nk us]))
          simpa [List.take_take, expandWords] using this
      have := congrArg (List.take ws.length) (pre n (ws ++ [nextWord nk ws]))
      simp [List.take_take] at this
      rw [this]
      simp [List.getD]
    · exact ih _ (by simp; omega) (by simp; omega)

/-! ### A schedule in its memory -/

theorem flatMap_toList_length (keys : List Block) : (keys.flatMap Vector.toList).length = 16 * keys.length := by
  induction keys with
  | nil => rfl
  | cons b keys ih => simp [List.flatMap_cons, ih]; omega

theorem flatMap_toList_getD (keys : List Block) (r k : Nat) (hr : r < keys.length) (hk : k < 16) :
    (keys.flatMap Vector.toList).getD (16 * r + k) Memory.unlisted = keys[r][k] := by
  induction keys generalizing r with
  | nil => simp at hr
  | cons b keys ih =>
    cases r with
    | zero => simp [List.flatMap_cons, List.getD, List.getElem?_append_left (l₁ := b.toList) (by simpa using hk), hk]
    | succ r =>
      have := ih r (by simpa using hr)
      rw [List.flatMap_cons, List.getD, List.getElem?_append_right (by simp; omega)]
      rw [List.getD] at this
      simpa [show 16 * (r + 1) + k - 16 = 16 * r + k by omega] using this

/-- Byte k of round key r lies at index `16r + k` (10_state R46). -/
theorem read_scheduleMemory (keys : List Block) (r k : Nat) (hr : r < keys.length) (hk : k < 16) :
    Memory.read (scheduleMemory keys) (16 * r + k) = keys[r][k] := by
  rw [scheduleMemory, Memory.read_fill, flatMap_toList_getD keys r k hr hk]

/-- "Bytes W[16(NR+1) .. 239] are 0x00" (10_state R46). -/
theorem read_scheduleMemory_tail (keys : List Block) (j : Nat) (h : 16 * keys.length ≤ j) :
    Memory.read (scheduleMemory keys) j = 0x00#8 := by
  rw [scheduleMemory, Memory.read_fill, List.getD_eq_default _ _ (by rw [flatMap_toList_length]; exact h)]
  rfl

theorem scheduleMemory_form (keys : List Block) (h : keys.length ≤ 15) : ScheduleForm (scheduleMemory keys) := by
  refine ⟨Memory.wf_fill _, fun c hc => ?_⟩
  have := Memory.mem_fill hc
  rw [flatMap_toList_length] at this
  omega

@[simp] theorem roundKeys_length (nr : Nat) (ws : List Word) : (roundKeys nr ws).length = nr + 1 := by
  simp [roundKeys]

@[simp] theorem eqInvRoundKeys_length (nr : Nat) (ws : List Word) : (eqInvRoundKeys nr ws).length = nr + 1 := by
  simp [eqInvRoundKeys]

/-- The two schedules of a key are in canonical form, inside the 240 bytes. -/
theorem forwardSchedule_form (ks : KeySize) (k : Bytes (4 * ks.nk)) : ScheduleForm (forwardSchedule ks k) :=
  scheduleMemory_form _ (by have := ks.nr_le; simp; omega)

theorem eqInvSchedule_form (ks : KeySize) (k : Bytes (4 * ks.nk)) : ScheduleForm (eqInvSchedule ks k) :=
  scheduleMemory_form _ (by have := ks.nr_le; simp; omega)

theorem cleared_form : ScheduleForm Memory.cleared := ⟨Memory.wf_cleared, by simp [Memory.cleared]⟩

/-- Round key r of W as LOAD_KEY leaves it. -/
theorem roundKeyOf_forwardSchedule (ks : KeySize) (k : Bytes (4 * ks.nk)) (r : Nat) (h : r ≤ ks.nr) :
    roundKeyOf (forwardSchedule ks k) r = roundKeyOfWords (keyExpansion ks k) r := by
  ext j hj
  rw [roundKeyOf_getElem, forwardSchedule, read_scheduleMemory _ r j (by simp; omega) hj]
  simp [roundKeys]

/-- Round key r of DW as LOAD_KEY leaves it. -/
theorem roundKeyOf_eqInvSchedule (ks : KeySize) (k : Bytes (4 * ks.nk)) (r : Nat) (h : r ≤ ks.nr) :
    roundKeyOf (eqInvSchedule ks k) r = eqInvRoundKey ks.nr (keyExpansion ks k) r := by
  ext j hj
  rw [roundKeyOf_getElem, eqInvSchedule, read_scheduleMemory _ r j (by simp; omega) hj]
  simp [eqInvRoundKeys]

/-! ### LOAD_KEY -/

/-- LOAD_KEY fails with PLATFORM, or fails with CONFIG and discards the schedules, or installs those of a key size. -/
theorem execLoadKey_cases {s t : State} (h : execLoadKey s = .next t) :
    (s.ctrl.bo = true ∧ t = s.setErr .platform) ∨
    (s.ctrl.bo = false ∧ keySizeOfKeylen s.ctrl.keylen = none ∧ t = s.discardKey.setErr .config) ∨
    (∃ ks, s.ctrl.bo = false ∧ keySizeOfKeylen s.ctrl.keylen = some ks ∧
      t = (s.installKey ks (s.keyPrefix (4 * ks.nk) ks.bytes_le)).setErr .ok) := by
  rcases command_cases h with h | ⟨hb, h⟩
  · exact .inl h
  · split at h
    · rename_i hk
      exact .inr (.inl ⟨hb, hk, by simpa using h.symm⟩)
    · rename_i ks hk
      exact .inr (.inr ⟨ks, hb, hk, by simpa using h.symm⟩)

theorem execLoadKey_answers (s : State) : ∃ t, execLoadKey s = .next t := by
  refine command_answers s ?_
  split
  · exact ⟨_, rfl⟩
  · exact ⟨_, rfl⟩

end Sys2Proof.Machine
end

