-- ==== Sys2Proof/Laws/Exec.lean ====
section
/-! SUPPORT. `exec`: every command answers a next state, and the arms of `exec`, one equation each. -/
namespace Sys2Proof.Machine

/-! ### The arms -/

theorem exec_nop (s : State) : exec .nop s = execNop s := rfl
theorem exec_gfAdd (s : State) : exec .gfAdd s = execGfAdd s := rfl
theorem exec_gfXtime (s : State) : exec .gfXtime s = execGfXtime s := rfl
theorem exec_gfMul (s : State) : exec .gfMul s = execGfMul s := rfl
theorem exec_sbox (s : State) : exec .sbox s = execSbox s := rfl
theorem exec_invSbox (s : State) : exec .invSbox s = execInvSbox s := rfl
theorem exec_subBytes (s : State) : exec .subBytes s = execSubBytes s := rfl
theorem exec_invSubBytes (s : State) : exec .invSubBytes s = execInvSubBytes s := rfl
theorem exec_shiftRows (s : State) : exec .shiftRows s = execShiftRows s := rfl
theorem exec_invShiftRows (s : State) : exec .invShiftRows s = execInvShiftRows s := rfl
theorem exec_mixColumns (s : State) : exec .mixColumns s = execMixColumns s := rfl
theorem exec_invMixColumns (s : State) : exec .invMixColumns s = execInvMixColumns s := rfl
theorem exec_addRk (s : State) : exec .addRk s = execAddRk s := rfl
theorem exec_addRkFwd (round : Nat) (s : State) : exec (.addRkFwd round) s = execAddRkFwd round s := rfl
theorem exec_addRkEqi (round : Nat) (s : State) : exec (.addRkEqi round) s = execAddRkEqi round s := rfl
theorem exec_loadKey (s : State) : exec .loadKey s = execLoadKey s := rfl
theorem exec_cipher (s : State) : exec .cipher s = execCipher s := rfl
theorem exec_invCipher (s : State) : exec .invCipher s = execInvCipher s := rfl
theorem exec_eqInvCipher (s : State) : exec .eqInvCipher s = execEqInvCipher s := rfl

/-! ### A command with BO = 0: what it does -/

theorem exec_nop_of_le {s : State} (h : s.ctrl.bo = false) : exec .nop s = .next (s.setErr .ok) := by
  rw [exec_nop, execNop, command_of_le h, done_eq]

theorem exec_gfAdd_of_le {s : State} (h : s.ctrl.bo = false) : exec .gfAdd s = .next ((s.setR (gfAdd s.gfop.a s.gfop.b)).setErr .ok) := by
  rw [exec_gfAdd, execGfAdd, command_of_le h, done_eq]

theorem exec_gfXtime_of_le {s : State} (h : s.ctrl.bo = false) : exec .gfXtime s = .next ((s.setR (xtime s.gfop.a)).setErr .ok) := by
  rw [exec_gfXtime, execGfXtime, command_of_le h, done_eq]

theorem exec_gfMul_of_le {s : State} (h : s.ctrl.bo = false) : exec .gfMul s = .next ((s.setR (gfMul s.gfop.a s.gfop.b)).setErr .ok) := by
  rw [exec_gfMul, execGfMul, command_of_le h, done_eq]

theorem exec_sbox_of_le {s : State} (h : s.ctrl.bo = false) : exec .sbox s = .next ((s.setR (sbox s.gfop.a)).setErr .ok) := by
  rw [exec_sbox, execSbox, command_of_le h, done_eq]

theorem exec_invSbox_of_le {s : State} (h : s.ctrl.bo = false) : exec .invSbox s = .next ((s.setR (invSbox s.gfop.a)).setErr .ok) := by
  rw [exec_invSbox, execInvSbox, command_of_le h, done_eq]

theorem exec_subBytes_of_le {s : State} (h : s.ctrl.bo = false) : exec .subBytes s = .next ((s.setState (subBytes s.state)).setErr .ok) := by
  rw [exec_subBytes, execSubBytes, command_of_le h, done_eq]

theorem exec_invSubBytes_of_le {s : State} (h : s.ctrl.bo = false) : exec .invSubBytes s = .next ((s.setState (invSubBytes s.state)).setErr .ok) := by
  rw [exec_invSubBytes, execInvSubBytes, command_of_le h, done_eq]

theorem exec_shiftRows_of_le {s : State} (h : s.ctrl.bo = false) : exec .shiftRows s = .next ((s.setState (shiftRows s.state)).setErr .ok) := by
  rw [exec_shiftRows, execShiftRows, command_of_le h, done_eq]

theorem exec_invShiftRows_of_le {s : State} (h : s.ctrl.bo = false) : exec .invShiftRows s = .next ((s.setState (invShiftRows s.state)).setErr .ok) := by
  rw [exec_invShiftRows, execInvShiftRows, command_of_le h, done_eq]

theorem exec_mixColumns_of_le {s : State} (h : s.ctrl.bo = false) : exec .mixColumns s = .next ((s.setState (mixColumns s.state)).setErr .ok) := by
  rw [exec_mixColumns, execMixColumns, command_of_le h, done_eq]

theorem exec_invMixColumns_of_le {s : State} (h : s.ctrl.bo = false) : exec .invMixColumns s = .next ((s.setState (invMixColumns s.state)).setErr .ok) := by
  rw [exec_invMixColumns, execInvMixColumns, command_of_le h, done_eq]

theorem exec_addRk_of_le {s : State} (h : s.ctrl.bo = false) : exec .addRk s = .next ((s.setState (addRoundKey s.state s.rkin)).setErr .ok) := by
  rw [exec_addRk, execAddRk, command_of_le h, done_eq]

theorem exec_addRkFwd_of_keyed {round : Nat} {s : State} (h : s.ctrl.bo = false) (hk : s.status.keyed = true)
    (hr : round ≤ s.status.nr.toNat) :
    exec (.addRkFwd round) s = .next ((s.setState (addRoundKey s.state (s.roundKeyFwd round))).setErr .ok) := by
  rw [exec_addRkFwd, execAddRkFwd, roundCommand_of_round h hk hr, done_eq]

theorem exec_addRkEqi_of_keyed {round : Nat} {s : State} (h : s.ctrl.bo = false) (hk : s.status.keyed = true)
    (hr : round ≤ s.status.nr.toNat) :
    exec (.addRkEqi round) s = .next ((s.setState (addRoundKey s.state (s.roundKeyEqi round))).setErr .ok) := by
  rw [exec_addRkEqi, execAddRkEqi, roundCommand_of_round h hk hr, done_eq]

theorem exec_cipher_of_keyed {s : State} (h : s.ctrl.bo = false) (hk : s.status.keyed = true) :
    exec .cipher s = .next ((s.takeRun (cipher s.state s.roundKeyFwd s.numRounds)).setErr .ok) := by
  rw [exec_cipher, execCipher, keyedCommand_of_keyed h hk, done_eq]

theorem exec_invCipher_of_keyed {s : State} (h : s.ctrl.bo = false) (hk : s.status.keyed = true) :
    exec .invCipher s = .next ((s.takeRun (invCipher s.state s.roundKeyFwd s.numRounds)).setErr .ok) := by
  rw [exec_invCipher, execInvCipher, keyedCommand_of_keyed h hk, done_eq]

theorem exec_eqInvCipher_of_keyed {s : State} (h : s.ctrl.bo = false) (hk : s.status.keyed = true) :
    exec .eqInvCipher s = .next ((s.takeRun (eqInvCipher s.state s.roundKeyEqi s.numRounds)).setErr .ok) := by
  rw [exec_eqInvCipher, execEqInvCipher, keyedCommand_of_keyed h hk, done_eq]

/-- With BO = 1 every command fails with PLATFORM (60_exceptions R233). -/
theorem exec_of_bo (i : Instr) {s : State} (h : s.ctrl.bo = true) : exec i s = .next (s.setErr .platform) := by
  cases i with
  | nop => rw [exec_nop, execNop, command_of_bo h]
  | gfAdd => rw [exec_gfAdd, execGfAdd, command_of_bo h]
  | gfXtime => rw [exec_gfXtime, execGfXtime, command_of_bo h]
  | gfMul => rw [exec_gfMul, execGfMul, command_of_bo h]
  | sbox => rw [exec_sbox, execSbox, command_of_bo h]
  | invSbox => rw [exec_invSbox, execInvSbox, command_of_bo h]
  | subBytes => rw [exec_subBytes, execSubBytes, command_of_bo h]
  | invSubBytes => rw [exec_invSubBytes, execInvSubBytes, command_of_bo h]
  | shiftRows => rw [exec_shiftRows, execShiftRows, command_of_bo h]
  | invShiftRows => rw [exec_invShiftRows, execInvShiftRows, command_of_bo h]
  | mixColumns => rw [exec_mixColumns, execMixColumns, command_of_bo h]
  | invMixColumns => rw [exec_invMixColumns, execInvMixColumns, command_of_bo h]
  | addRk => rw [exec_addRk, execAddRk, command_of_bo h]
  | addRkFwd round => rw [exec_addRkFwd, execAddRkFwd, roundCommand, keyedCommand_of_bo h]
  | addRkEqi round => rw [exec_addRkEqi, execAddRkEqi, roundCommand, keyedCommand_of_bo h]
  | loadKey => rw [exec_loadKey, execLoadKey, command_of_bo h]
  | cipher => rw [exec_cipher, execCipher, keyedCommand_of_bo h]
  | invCipher => rw [exec_invCipher, execInvCipher, keyedCommand_of_bo h]
  | eqInvCipher => rw [exec_eqInvCipher, execEqInvCipher, keyedCommand_of_bo h]

/-! ### What a schedule-dependent command can do -/

theorem exec_addRkFwd_cases {round : Nat} {s t : State} (h : exec (.addRkFwd round) s = .next t) :
    (s.ctrl.bo = true ∧ t = s.setErr .platform) ∨
    (s.ctrl.bo = false ∧ s.status.keyed = false ∧ t = s.setErr .noKey) ∨
    (s.ctrl.bo = false ∧ s.status.keyed = true ∧ s.status.nr.toNat < round ∧ t = s.setErr .operand) ∨
    (s.ctrl.bo = false ∧ s.status.keyed = true ∧ round ≤ s.status.nr.toNat ∧
      t = (s.setState (addRoundKey s.state (s.roundKeyFwd round))).setErr .ok) := by
  rw [exec_addRkFwd, execAddRkFwd] at h
  rcases roundCommand_cases h with h | h | h | ⟨hb, hk, hr, h⟩
  · exact .inl h
  · exact .inr (.inl h)
  · exact .inr (.inr (.inl h))
  · exact .inr (.inr (.inr ⟨hb, hk, hr, by rw [done_eq] at h; exact (next_inj h).symm⟩))

theorem exec_addRkEqi_cases {round : Nat} {s t : State} (h : exec (.addRkEqi round) s = .next t) :
    (s.ctrl.bo = true ∧ t = s.setErr .platform) ∨
    (s.ctrl.bo = false ∧ s.status.keyed = false ∧ t = s.setErr .noKey) ∨
    (s.ctrl.bo = false ∧ s.status.keyed = true ∧ s.status.nr.toNat < round ∧ t = s.setErr .operand) ∨
    (s.ctrl.bo = false ∧ s.status.keyed = true ∧ round ≤ s.status.nr.toNat ∧
      t = (s.setState (addRoundKey s.state (s.roundKeyEqi round))).setErr .ok) := by
  rw [exec_addRkEqi, execAddRkEqi] at h
  rcases roundCommand_cases h with h | h | h | ⟨hb, hk, hr, h⟩
  · exact .inl h
  · exact .inr (.inl h)
  · exact .inr (.inr (.inl h))
  · exact .inr (.inr (.inr ⟨hb, hk, hr, by rw [done_eq] at h; exact (next_inj h).symm⟩))

theorem exec_cipher_cases {s t : State} (h : exec .cipher s = .next t) :
    (s.ctrl.bo = true ∧ t = s.setErr .platform) ∨
    (s.ctrl.bo = false ∧ s.status.keyed = false ∧ t = s.setErr .noKey) ∨
    (s.ctrl.bo = false ∧ s.status.keyed = true ∧
      t = (s.takeRun (cipher s.state s.roundKeyFwd s.numRounds)).setErr .ok) := by
  rw [exec_cipher, execCipher] at h
  rcases keyedCommand_cases h with h | h | ⟨hb, hk, h⟩
  · exact .inl h
  · exact .inr (.inl h)
  · exact .inr (.inr ⟨hb, hk, by rw [done_eq] at h; exact (next_inj h).symm⟩)

theorem exec_invCipher_cases {s t : State} (h : exec .invCipher s = .next t) :
    (s.ctrl.bo = true ∧ t = s.setErr .platform) ∨
    (s.ctrl.bo = false ∧ s.status.keyed = false ∧ t = s.setErr .noKey) ∨
    (s.ctrl.bo = false ∧ s.status.keyed = true ∧
      t = (s.takeRun (invCipher s.state s.roundKeyFwd s.numRounds)).setErr .ok) := by
  rw [exec_invCipher, execInvCipher] at h
  rcases keyedCommand_cases h with h | h | ⟨hb, hk, h⟩
  · exact .inl h
  · exact .inr (.inl h)
  · exact .inr (.inr ⟨hb, hk, by rw [done_eq] at h; exact (next_inj h).symm⟩)

theorem exec_eqInvCipher_cases {s t : State} (h : exec .eqInvCipher s = .next t) :
    (s.ctrl.bo = true ∧ t = s.setErr .platform) ∨
    (s.ctrl.bo = false ∧ s.status.keyed = false ∧ t = s.setErr .noKey) ∨
    (s.ctrl.bo = false ∧ s.status.keyed = true ∧
      t = (s.takeRun (eqInvCipher s.state s.roundKeyEqi s.numRounds)).setErr .ok) := by
  rw [exec_eqInvCipher, execEqInvCipher] at h
  rcases keyedCommand_cases h with h | h | ⟨hb, hk, h⟩
  · exact .inl h
  · exact .inr (.inl h)
  · exact .inr (.inr ⟨hb, hk, by rw [done_eq] at h; exact (next_inj h).symm⟩)

/-! ### Every command -/

/-- Every command answers a next state, whatever the state (70_reset R273). -/
theorem exec_answers (i : Instr) (s : State) : ∃ t, exec i s = .next t := by
  cases i with
  | nop => rw [exec_nop, execNop]; exact command_answers s ⟨_, rfl⟩
  | gfAdd => rw [exec_gfAdd, execGfAdd]; exact command_answers s ⟨_, rfl⟩
  | gfXtime => rw [exec_gfXtime, execGfXtime]; exact command_answers s ⟨_, rfl⟩
  | gfMul => rw [exec_gfMul, execGfMul]; exact command_answers s ⟨_, rfl⟩
  | sbox => rw [exec_sbox, execSbox]; exact command_answers s ⟨_, rfl⟩
  | invSbox => rw [exec_invSbox, execInvSbox]; exact command_answers s ⟨_, rfl⟩
  | subBytes => rw [exec_subBytes, execSubBytes]; exact command_answers s ⟨_, rfl⟩
  | invSubBytes => rw [exec_invSubBytes, execInvSubBytes]; exact command_answers s ⟨_, rfl⟩
  | shiftRows => rw [exec_shiftRows, execShiftRows]; exact command_answers s ⟨_, rfl⟩
  | invShiftRows => rw [exec_invShiftRows, execInvShiftRows]; exact command_answers s ⟨_, rfl⟩
  | mixColumns => rw [exec_mixColumns, execMixColumns]; exact command_answers s ⟨_, rfl⟩
  | invMixColumns => rw [exec_invMixColumns, execInvMixColumns]; exact command_answers s ⟨_, rfl⟩
  | addRk => rw [exec_addRk, execAddRk]; exact command_answers s ⟨_, rfl⟩
  | addRkFwd round => rw [exec_addRkFwd, execAddRkFwd]; exact roundCommand_answers s ⟨_, rfl⟩
  | addRkEqi round => rw [exec_addRkEqi, execAddRkEqi]; exact roundCommand_answers s ⟨_, rfl⟩
  | loadKey => exact execLoadKey_answers s
  | cipher => exact execCipher_answers s
  | invCipher => exact execInvCipher_answers s
  | eqInvCipher => exact execEqInvCipher_answers s

/-- Everything a command can do, said once. A relation between the state before and after holds of every command when
it holds of an error code set, of GFRES, of STATE and of an engine's run taken with ERR = OK, of the schedules
discarded with ERR = CONFIG, and of a key installed with ERR = OK. -/
theorem exec_rel {P : State → State → Prop} (i : Instr) {s t : State} (he : ∀ e, P s (s.setErr e))
    (hr : ∀ r, P s ((s.setR r).setErr .ok)) (hx : ∀ x, P s ((s.setState x).setErr .ok))
    (ht : ∀ run, P s ((s.takeRun run).setErr .ok))
    (hl : i = .loadKey → P s (s.discardKey.setErr .config) ∧ ∀ ks k, P s ((s.installKey ks k).setErr .ok))
    (h : exec i s = .next t) : P s t := by
  cases i with
  | nop =>
    rw [exec_nop, execNop] at h
    exact command_rel he (fun t h => by rw [done_eq] at h; exact next_inj h ▸ he _) h
  | gfAdd =>
    rw [exec_gfAdd, execGfAdd] at h
    exact command_rel he (fun t h => by rw [done_eq] at h; exact next_inj h ▸ hr _) h
  | gfXtime =>
    rw [exec_gfXtime, execGfXtime] at h
    exact command_rel he (fun t h => by rw [done_eq] at h; exact next_inj h ▸ hr _) h
  | gfMul =>
    rw [exec_gfMul, execGfMul] at h
    exact command_rel he (fun t h => by rw [done_eq] at h; exact next_inj h ▸ hr _) h
  | sbox =>
    rw [exec_sbox, execSbox] at h
    exact command_rel he (fun t h => by rw [done_eq] at h; exact next_inj h ▸ hr _) h
  | invSbox =>
    rw [exec_invSbox, execInvSbox] at h
    exact command_rel he (fun t h => by rw [done_eq] at h; exact next_inj h ▸ hr _) h
  | subBytes =>
    rw [exec_subBytes, execSubBytes] at h
    exact command_rel he (fun t h => by rw [done_eq] at h; exact next_inj h ▸ hx _) h
  | invSubBytes =>
    rw [exec_invSubBytes, execInvSubBytes] at h
    exact command_rel he (fun t h => by rw [done_eq] at h; exact next_inj h ▸ hx _) h
  | shiftRows =>
    rw [exec_shiftRows, execShiftRows] at h
    exact command_rel he (fun t h => by rw [done_eq] at h; exact next_inj h ▸ hx _) h
  | invShiftRows =>
    rw [exec_invShiftRows, execInvShiftRows] at h
    exact command_rel he (fun t h => by rw [done_eq] at h; exact next_inj h ▸ hx _) h
  | mixColumns =>
    rw [exec_mixColumns, execMixColumns] at h
    exact command_rel he (fun t h => by rw [done_eq] at h; exact next_inj h ▸ hx _) h
  | invMixColumns =>
    rw [exec_invMixColumns, execInvMixColumns] at h
    exact command_rel he (fun t h => by rw [done_eq] at h; exact next_inj h ▸ hx _) h
  | addRk =>
    rw [exec_addRk, execAddRk] at h
    exact command_rel he (fun t h => by rw [done_eq] at h; exact next_inj h ▸ hx _) h
  | addRkFwd round =>
    rw [exec_addRkFwd, execAddRkFwd] at h
    exact roundCommand_rel he (fun t h => by rw [done_eq] at h; exact next_inj h ▸ hx _) h
  | addRkEqi round =>
    rw [exec_addRkEqi, execAddRkEqi] at h
    exact roundCommand_rel he (fun t h => by rw [done_eq] at h; exact next_inj h ▸ hx _) h
  | loadKey =>
    rcases execLoadKey_cases h with ⟨-, rfl⟩ | ⟨-, -, rfl⟩ | ⟨ks, -, -, rfl⟩
    · exact he _
    · exact (hl rfl).1
    · exact (hl rfl).2 ks _
  | cipher =>
    rw [exec_cipher, execCipher] at h
    exact keyedCommand_rel he (fun t h => by rw [done_eq] at h; exact next_inj h ▸ ht _) h
  | invCipher =>
    rw [exec_invCipher, execInvCipher] at h
    exact keyedCommand_rel he (fun t h => by rw [done_eq] at h; exact next_inj h ▸ ht _) h
  | eqInvCipher =>
    rw [exec_eqInvCipher, execEqInvCipher] at h
    exact keyedCommand_rel he (fun t h => by rw [done_eq] at h; exact next_inj h ▸ ht _) h

end Sys2Proof.Machine
end

