-- ==== Sys2Proof/Laws/Bus.lean ====
section
/-! SUPPORT. Accesses: what each region reads as, what a byte write changes, and what serving one event can do. -/
namespace Sys2Proof.Machine

/-! ### The checks of an access -/

/-- An access passes its checks exactly when its size is 1, 2 or 4, it is aligned, and all its bytes are mapped. -/
theorem accessFault_eq_none {off n : Nat} :
    accessFault off n = none ↔ (n = 1 ∨ n = 2 ∨ n = 4) ∧ off % n = 0 ∧ ∀ j < n, mapped (off + j) = true := by
  unfold accessFault
  by_cases h1 : n ≠ 1 ∧ n ≠ 2 ∧ n ≠ 4
  · rw [if_pos h1]
    exact ⟨fun h => (nomatch h), fun h => by omega⟩
  · rw [if_neg h1]
    by_cases h2 : off % n ≠ 0
    · simp [h2]
    · rw [if_neg h2]
      by_cases h3 : (List.range n).all fun j => mapped (off + j)
      · simp only [h3, if_true, true_iff]
        exact ⟨by omega, by omega, by simpa using h3⟩
      · simp only [h3, Bool.false_eq_true, if_false, reduceCtorEq, false_iff]
        simp only [List.all_eq_true, List.mem_range] at h3
        exact fun h => h3 h.2.2

/-- A mapped offset lies in one of the ten regions of the map (20_memory R61). -/
theorem mapped_iff (o : Nat) : mapped o = true ↔
    o < 0x00C ∨ (0x010 ≤ o ∧ o < 0x018) ∨ (0x020 ≤ o ∧ o < 0x060) ∨ (0x100 ≤ o ∧ o < 0x1F0) ∨
      (0x200 ≤ o ∧ o < 0x2F0) := by
  simp only [mapped, mappedRegions, List.any_cons, List.any_nil, Bool.or_eq_true, decide_eq_true_eq,
    Bool.false_eq_true, or_false]
  omega

/-! ### Reading a byte -/

theorem readByte_state (s : State) (k : Nat) (h : k < 16) : readByte s (0x020 + k) = s.state[k] := by
  have e : 0x020 + k - 0x020 = k := by omega
  simp only [readByte]
  rw [if_neg (by omega), if_neg (by omega), if_neg (by omega), if_neg (by omega), dif_pos (by omega)]
  simp only [e]

theorem readByte_rkin (s : State) (k : Nat) (h : k < 16) : readByte s (0x030 + k) = s.rkin[k] := by
  have e : 0x030 + k - 0x030 = k := by omega
  simp only [readByte]
  rw [if_neg (by omega), if_neg (by omega), if_neg (by omega), if_neg (by omega), dif_neg (by omega),
    dif_pos (by omega)]
  simp only [e]

theorem readByte_key (s : State) (k : Nat) (h : k < 32) : readByte s (0x040 + k) = s.key[k] := by
  have e : 0x040 + k - 0x040 = k := by omega
  simp only [readByte]
  rw [if_neg (by omega), if_neg (by omega), if_neg (by omega), if_neg (by omega), dif_neg (by omega),
    dif_neg (by omega), dif_pos (by omega)]
  simp only [e]

theorem readByte_w (s : State) (j : Nat) (h : j < 240) : readByte s (0x100 + j) = Memory.read s.w j := by
  have e : 0x100 + j - 0x100 = j := by omega
  simp only [readByte]
  rw [if_neg (by omega), if_neg (by omega), if_neg (by omega), if_neg (by omega), dif_neg (by omega),
    dif_neg (by omega), dif_neg (by omega), if_pos (by omega), e]

theorem readByte_dw (s : State) (j : Nat) (h : j < 240) : readByte s (0x200 + j) = Memory.read s.dw j := by
  have e : 0x200 + j - 0x200 = j := by omega
  simp only [readByte]
  rw [if_neg (by omega), if_neg (by omega), if_neg (by omega), if_neg (by omega), dif_neg (by omega),
    dif_neg (by omega), dif_neg (by omega), if_neg (by omega), if_pos (by omega), e]

theorem readByte_status (s : State) (j : Nat) (h : j < 4) :
    readByte s (0x008 + j) = laneOf s.status.word j := by
  have e : 0x008 + j - 0x008 = j := by omega
  simp only [readByte]
  rw [if_neg (by omega), if_pos (by omega), e]

/-- A byte read depends on the registers and the two memories only: states that agree on them read alike. -/
theorem readByte_congr {s t : State} (hc : t.ctrl = s.ctrl) (hs : t.status = s.status) (hg : t.gfop = s.gfop)
    (hr : t.gfres = s.gfres) (hx : t.state = s.state) (hk : t.rkin = s.rkin) (hy : t.key = s.key) (hw : t.w = s.w)
    (hd : t.dw = s.dw) (o : Nat) : readByte t o = readByte s o := by
  simp only [readByte, hc, hs, hg, hr, hx, hk, hy, hw, hd]

/-! ### Writing a byte -/

theorem writeByte_state (s : State) (o : Nat) (b : Byte) (h : 0x020 ≤ o ∧ o < 0x030) :
    writeByte s o b = { s with state := s.state.set (o - 0x020) b } := by
  rw [writeByte, if_neg (by omega), if_neg (by omega), if_neg (by omega), if_neg (by omega), dif_pos h]

theorem writeByte_rkin (s : State) (o : Nat) (b : Byte) (h : 0x030 ≤ o ∧ o < 0x040) :
    writeByte s o b = { s with rkin := s.rkin.set (o - 0x030) b } := by
  rw [writeByte, if_neg (by omega), if_neg (by omega), if_neg (by omega), if_neg (by omega), dif_neg (by omega),
    dif_pos h]

theorem writeByte_key (s : State) (o : Nat) (b : Byte) (h : 0x040 ≤ o ∧ o < 0x060) :
    writeByte s o b = { s with key := s.key.set (o - 0x040) b } := by
  rw [writeByte, if_neg (by omega), if_neg (by omega), if_neg (by omega), if_neg (by omega), dif_neg (by omega),
    dif_neg (by omega), dif_pos h]

/-- The offsets whose byte is RW (20_memory R61). -/
def Writable (o : Nat) : Prop := o = 0x000 ∨ o = 0x001 ∨ o = 0x010 ∨ o = 0x011 ∨ (0x020 ≤ o ∧ o < 0x060)

/-- "RO byte, RSV byte: ignored" (20_memory R67). -/
theorem writeByte_ignored (s : State) (o : Nat) (b : Byte) (h : ¬ Writable o) : writeByte s o b = s := by
  unfold Writable at h
  rw [writeByte, if_neg (by omega), if_neg (by omega), if_neg (by omega), if_neg (by omega), dif_neg (by omega),
    dif_neg (by omega), dif_neg (by omega)]

/-- What a byte write can do: one RW byte set, or nothing (20_memory R67, R70). -/
theorem writeByte_cases (s : State) (o : Nat) (b : Byte) :
    (o = 0x000 ∧ writeByte s o b = { s with ctrl := s.ctrl.writeByte0 b }) ∨
    (o = 0x001 ∧ writeByte s o b = { s with ctrl := s.ctrl.writeByte1 b }) ∨
    (o = 0x010 ∧ writeByte s o b = { s with gfop := { s.gfop with a := b } }) ∨
    (o = 0x011 ∧ writeByte s o b = { s with gfop := { s.gfop with b := b } }) ∨
    (∃ h : o - 0x020 < 16, 0x020 ≤ o ∧ writeByte s o b = { s with state := s.state.set (o - 0x020) b h }) ∨
    (∃ h : o - 0x030 < 16, 0x030 ≤ o ∧ writeByte s o b = { s with rkin := s.rkin.set (o - 0x030) b h }) ∨
    (∃ h : o - 0x040 < 32, 0x040 ≤ o ∧ writeByte s o b = { s with key := s.key.set (o - 0x040) b h }) ∨
    writeByte s o b = s := by
  by_cases hw : Writable o
  · unfold Writable at hw
    by_cases h0 : o = 0x000
    · exact .inl ⟨h0, by rw [writeByte, if_pos h0]⟩
    by_cases h1 : o = 0x001
    · exact .inr (.inl ⟨h1, by rw [writeByte, if_neg h0, if_pos h1]⟩)
    by_cases h2 : o = 0x010
    · exact .inr (.inr (.inl ⟨h2, by rw [writeByte, if_neg h0, if_neg h1, if_pos h2]⟩))
    by_cases h3 : o = 0x011
    · exact .inr (.inr (.inr (.inl ⟨h3, by rw [writeByte, if_neg h0, if_neg h1, if_neg h2, if_pos h3]⟩)))
    by_cases h4 : 0x020 ≤ o ∧ o < 0x030
    · exact .inr (.inr (.inr (.inr (.inl ⟨by omega, h4.1, writeByte_state s o b h4⟩))))
    by_cases h5 : 0x030 ≤ o ∧ o < 0x040
    · exact .inr (.inr (.inr (.inr (.inr (.inl ⟨by omega, h5.1, writeByte_rkin s o b h5⟩)))))
    · exact .inr (.inr (.inr (.inr (.inr (.inr (.inl ⟨by omega, by omega, writeByte_key s o b (by omega)⟩))))))
  · exact .inr (.inr (.inr (.inr (.inr (.inr (.inr (writeByte_ignored s o b hw)))))))

/-- The fields no host write reaches: STATUS, GFRES, W, DW, TRACE, and the two lists of the outside. -/
structure HostKept (s t : State) : Prop where
  status : t.status = s.status
  gfres : t.gfres = s.gfres
  w : t.w = s.w
  dw : t.dw = s.dw
  trace : t.trace = s.trace
  pending : t.pending = s.pending
  responses : t.responses = s.responses

theorem writeByte_kept (s : State) (o : Nat) (b : Byte) : HostKept s (writeByte s o b) := by
  rcases writeByte_cases s o b with ⟨-, e⟩ | ⟨-, e⟩ | ⟨-, e⟩ | ⟨-, e⟩ | ⟨_, -, e⟩ | ⟨_, -, e⟩ | ⟨_, -, e⟩ | e <;> rw [e] <;>
    exact ⟨rfl, rfl, rfl, rfl, rfl, rfl, rfl⟩

theorem writeLanes_kept (s : State) (off : Nat) (v : BusWord) (n : Nat) : HostKept s (writeLanes s off v n) := by
  induction n with
  | zero => exact ⟨rfl, rfl, rfl, rfl, rfl, rfl, rfl⟩
  | succ n ih =>
    have h := writeByte_kept (writeLanes s off v n) (off + n) (laneOf v n)
    exact ⟨h.status.trans ih.status, h.gfres.trans ih.gfres, h.w.trans ih.w, h.dw.trans ih.dw, h.trace.trans ih.trace,
      h.pending.trans ih.pending, h.responses.trans ih.responses⟩

/-! ### Executing and serving -/

/-- A word the decoder rejects fails with PLATFORM or ILLEGAL. -/
theorem illegalCommand_eq (s : State) :
    illegalCommand s = .next (s.setErr (if s.ctrl.bo then .platform else .illegal)) := by
  cases h : s.ctrl.bo <;> simp [illegalCommand, command, h]

/-- Every command word answers a next state (70_reset R273). -/
theorem execute_answers (v : BusWord) (s : State) : ∃ t, execute v s = .next t := by
  unfold execute
  split
  · exact exec_answers _ s
  · exact ⟨_, illegalCommand_eq s⟩

/-- What a bus write can do: a bus error, a command run, or lanes written. -/
theorem busWrite_cases (s : State) (off n : Nat) (v : BusWord) :
    (∃ r, busWrite s off n v = .fault r) ∨
    (accessFault off n = none ∧ off = 0x004 ∧ n = 4 ∧ busWrite s off n v = execute v s) ∨
    (accessFault off n = none ∧ ¬ (0x004 ≤ off ∧ off < 0x008) ∧ busWrite s off n v = .next (writeLanes s off v n)) := by
  unfold busWrite
  cases h : accessFault off n with
  | some r => exact .inl ⟨r, rfl⟩
  | none =>
    have ⟨_, ha, _⟩ := accessFault_eq_none.1 h
    by_cases hc : 0x004 ≤ off ∧ off < 0x008
    · by_cases hn : n = 4
      · subst hn
        exact .inr (.inl ⟨rfl, by omega, rfl, by simp [hc]⟩)
      · exact .inl ⟨.subwordCmd, by simp [hc, hn]⟩
    · exact .inr (.inr ⟨rfl, hc, by simp [hc]⟩)

/-- What serving a write can do. -/
theorem serveWrite_cases (s : State) (off n : Nat) (v : BusWord) :
    (∃ r, busWrite s off n v = .fault r ∧ serveWrite s off n v = .next (s.respond (.error r))) ∨
    (accessFault off n = none ∧ off = 0x004 ∧ n = 4 ∧
      ∃ t, execute v s = .next t ∧ serveWrite s off n v = .next (t.respond .written)) ∨
    (accessFault off n = none ∧ ¬ (0x004 ≤ off ∧ off < 0x008) ∧
      serveWrite s off n v = .next ((writeLanes s off v n).respond .written)) := by
  rcases busWrite_cases s off n v with ⟨r, h⟩ | ⟨h0, h1, h2, h⟩ | ⟨h0, h1, h⟩
  · exact .inl ⟨r, h, by simp [serveWrite, h]⟩
  · obtain ⟨t, ht⟩ := execute_answers v s
    exact .inr (.inl ⟨h0, h1, h2, t, ht, by simp [serveWrite, h, ht]⟩)
  · exact .inr (.inr ⟨h0, h1, by simp [serveWrite, h]⟩)

/-- Serving an event always answers a next state (70_reset R273). -/
theorem serve_answers (e : BusEvent) (s : State) : ∃ t, serve e s = .next t := by
  cases e with
  | read off n => exact ⟨_, rfl⟩
  | write off n v =>
    rcases serveWrite_cases s off.toNat n v with ⟨_, _, h⟩ | ⟨_, _, _, _, _, h⟩ | ⟨_, _, h⟩ <;> exact ⟨_, h⟩
  | reset => exact ⟨_, rfl⟩

theorem step_of_pending {s : State} {e : BusEvent} {rest : List BusEvent} (h : s.pending = e :: rest) :
    step s = serve e (s.setPending rest) := by simp [step, serveNext, h]

/-- A step on a read leaves the state as it was, but for the event taken off and the response given. -/
theorem step_of_read {s : State} {off : BitVec 12} {n : Nat} {rest : List BusEvent} (h : s.pending = .read off n :: rest) :
    step s = .next ((s.setPending rest).respond (readResponse (s.setPending rest) off.toNat n)) := by
  rw [step_of_pending h]; rfl

/-- A step on a write that `busWrite` completes gives the state it leaves, with the response after it. -/
theorem step_of_write {s t : State} {off : BitVec 12} {n : Nat} {v : BusWord} {rest : List BusEvent}
    (h : s.pending = .write off n v :: rest) (hw : busWrite (s.setPending rest) off.toNat n v = .next t) :
    step s = .next (t.respond .written) := by
  rw [step_of_pending h, serve, serveWrite, hw]

/-- A step on a write that ends in a bus error changes nothing, and answers with its reason. -/
theorem step_of_write_error {s : State} {off : BitVec 12} {n : Nat} {v : BusWord} {rest : List BusEvent} {r : Fault}
    (h : s.pending = .write off n v :: rest) (hw : busWrite (s.setPending rest) off.toNat n v = .fault r) :
    step s = .next ((s.setPending rest).respond (.error r)) := by
  rw [step_of_pending h, serve, serveWrite, hw]

/-- A step on a 32-bit CMD write gives the state the command leaves, with the response after it (20_memory R75). -/
theorem step_of_command {s t : State} {v : BusWord} {rest : List BusEvent}
    (h : s.pending = .write 0x004#12 4 v :: rest) (ht : execute v (s.setPending rest) = .next t) :
    step s = .next (t.respond .written) := by
  have hb : busWrite (s.setPending rest) 0x004 4 v = .next t := ht
  exact step_of_write h hb

theorem step_of_idle {s : State} (h : s.pending = []) : step s = .next s := by simp [step, serveNext, h]

/-- What one step can do: nothing when idle, a response to a read, the reset state, or a write served. -/
theorem step_cases {s t : State} (h : step s = .next t) :
    (s.pending = [] ∧ t = s) ∨
    (∃ off n rest, s.pending = .read off n :: rest ∧
      t = (s.setPending rest).respond (readResponse (s.setPending rest) off.toNat n)) ∨
    (∃ rest, s.pending = .reset :: rest ∧ t = resetEvent (s.setPending rest)) ∨
    (∃ off n v rest, s.pending = .write off n v :: rest ∧ serveWrite (s.setPending rest) off.toNat n v = .next t) := by
  cases hp : s.pending with
  | nil => rw [step_of_idle hp] at h; exact .inl ⟨rfl, (next_inj h).symm⟩
  | cons e rest =>
    rw [step_of_pending hp] at h
    cases e with
    | read off n => exact .inr (.inl ⟨off, n, rest, rfl, (next_inj h).symm⟩)
    | write off n v => exact .inr (.inr (.inr ⟨off, n, v, rest, rfl, h⟩))
    | reset => exact .inr (.inr (.inl ⟨rest, rfl, (next_inj h).symm⟩))

/-! ### Runs -/

theorem run_zero (s : State) : Host.Core.run core 0 s = .next s := rfl

theorem run_succ {s t : State} (n : Nat) (h : step s = .next t) :
    Host.Core.run core (n + 1) s = Host.Core.run core n t := by
  have h' : core.step s = .next t := h
  simp only [Host.Core.run, h']

/-- A property that holds at a state and that every step keeps holds after any run: the induction packaged once. -/
theorem run_invariant {P : State → Prop} (keep : ∀ s t, P s → step s = .next t → P t) (n : Nat) {s t : State}
    (hs : P s) (h : Host.Core.run core n s = .next t) : P t := by
  induction n generalizing s with
  | zero => rw [run_zero] at h; exact next_inj h ▸ hs
  | succ n ih =>
    cases hstep : step s with
    | next u => rw [run_succ n hstep] at h; exact ih (keep s u hs hstep) h
    | fault r =>
      have h' : core.step s = .fault r := hstep
      simp only [Host.Core.run, h'] at h
      cases h
    | refused r =>
      have h' : core.step s = .refused r := hstep
      simp only [Host.Core.run, h'] at h
      cases h

end Sys2Proof.Machine
end

