-- ==== Sys2Proof/Laws/PerInstr.lean ====
section
/-! SUPPORT. The family EncodingFields: where a command word holds the fields of its instruction (30_encoding R91). -/
namespace Sys2Proof.Laws.EncodingFields

/-- The command word of a well-formed instruction has its opcode in [7:0], its ROUND in [15:8] and zero in [31:16]. -/
def Statement (i : Instr) : Prop :=
  i.wellFormed = true →
    fieldOpcode (encode i) = i.opcode ∧ (fieldRound (encode i)).toNat = i.roundField ∧ fieldRsv (encode i) = 0#16

/-- The fields of three values put together as format C. -/
theorem fields_of_parts (op rnd : Byte) :
    fieldOpcode (0#16 ++ rnd ++ op) = op ∧ fieldRound (0#16 ++ rnd ++ op) = rnd ∧ fieldRsv (0#16 ++ rnd ++ op) = 0#16 := by
  refine ⟨?_, ?_, ?_⟩
  · ext k hk
    simp only [fieldOpcode, BitVec.getElem_extractLsb', BitVec.getLsbD_append]
    simp [hk]
  · ext k hk
    simp only [fieldRound, BitVec.getElem_extractLsb', BitVec.getLsbD_append]
    rw [if_neg (by omega), if_pos (by omega)]
    rw [show 8 + k - 8 = k by omega, BitVec.getLsbD_eq_getElem hk]
  · ext k hk
    simp only [fieldRsv, BitVec.getElem_extractLsb', BitVec.getLsbD_append]
    rw [if_neg (by omega), if_neg (by omega)]
    simp

theorem of_parts (i : Instr) : Statement i := by
  intro h
  have hr : i.roundField < 256 := by simpa [Instr.wellFormed] using h
  have p := fields_of_parts i.opcode (BitVec.ofNat 8 i.roundField)
  exact ⟨p.1, by rw [encode, p.2.1]; simp; omega, p.2.2⟩

theorem nop : Statement .nop := of_parts _
theorem gfAdd : Statement .gfAdd := of_parts _
theorem gfXtime : Statement .gfXtime := of_parts _
theorem gfMul : Statement .gfMul := of_parts _
theorem sbox : Statement .sbox := of_parts _
theorem invSbox : Statement .invSbox := of_parts _
theorem subBytes : Statement .subBytes := of_parts _
theorem invSubBytes : Statement .invSubBytes := of_parts _
theorem shiftRows : Statement .shiftRows := of_parts _
theorem invShiftRows : Statement .invShiftRows := of_parts _
theorem mixColumns : Statement .mixColumns := of_parts _
theorem invMixColumns : Statement .invMixColumns := of_parts _
theorem addRk : Statement .addRk := of_parts _
theorem addRkFwd (round : Nat) : Statement (.addRkFwd round) := of_parts _
theorem addRkEqi (round : Nat) : Statement (.addRkEqi round) := of_parts _
theorem loadKey : Statement .loadKey := of_parts _
theorem cipher : Statement .cipher := of_parts _
theorem invCipher : Statement .invCipher := of_parts _
theorem eqInvCipher : Statement .eqInvCipher := of_parts _

end Sys2Proof.Laws.EncodingFields
end

