-- ==== Sys2Proof/Tests/Slice0.lean ====
section
/-! SUPPORT. Tests and witnesses. Expected results are those of spec/95_test_vectors.md (the section is named beside
each group) or a rule's own example. Every test is one command, one access or one step. The witnesses show, for every
obligation with hypotheses, states and operands that meet them. -/
namespace Sys2Proof.Tests

open Sys2Proof.Machine Sys2Proof.Claims

/-! ### Helpers -/

/-- A 16-byte value from its hex string. -/
def block (x : Nat) : Block := bytesOfHex 16 x

/-- What an outcome's next state shows of `f`. -/
def seen {α : Type} (f : State → α) : Result → Option α
  | .next t => some (f t)
  | .fault _ => none
  | .refused _ => none

/-- Reset, with GFOP set. -/
def gf (a b : Byte) : State := { State.reset with gfop := { a := a, b := b } }

/-- Reset, with STATE set. -/
def withBlock (x : Nat) : State := { State.reset with state := block x }

/-- The start state X of section 4.1. -/
def x0 : State := withBlock 0x000102030405060708090a0b0c0d0e0f

/-- Reset, with these events to come. -/
def sent (events : List BusEvent) : State := { State.reset with pending := events }

/-- Reset with CTRL.BO = 1. -/
def bigEndian : State := { State.reset with ctrl := { State.reset.ctrl with bo := true } }

/-- A memory with one round key in place, as the schedule windows lay it out. -/
def roundKeyAt (r x : Nat) (m : Memory) : Memory := Memory.writeFrom m (16 * r) (block x).toList

/-- A keyed AES-128 state with some round keys of W and DW laid in by hand, and the trace on. -/
def handKeyed (w dw : Memory) (x : Nat) : State :=
  { withBlock x with
    ctrl := { traceEn := true, bo := false, keylen := 0x10#8 }
    status := { err := .ok, keyed := true, nk := 4#4, nr := 10#4 }, w := w, dw := dw }

/-- KEY and KEYLEN set, ready for LOAD_KEY. `key` has 64 hex digits. -/
def ready (keylen : Byte) (key : Nat) : State :=
  { State.reset with ctrl := { traceEn := true, bo := false, keylen := keylen }, key := bytesOfHex 32 key }

/-- The state after LOAD_KEY of a zero key, with the trace on. -/
def loaded (ks : KeySize) : State :=
  ((ready 0x10#8 0).installKey ks (Vector.replicate (4 * ks.nk) 0x00#8)).setErr .ok

/-! ### Well-formedness: the one check, and a term it refuses for each command that has an operand -/

theorem test_wellFormed_round_255 : (Instr.addRkFwd 255).wellFormed = true := by decide
theorem test_wellFormed_refuses_addRkFwd_256 : (Instr.addRkFwd 256).wellFormed = false := by decide
theorem test_wellFormed_refuses_addRkEqi_256 : (Instr.addRkEqi 256).wellFormed = false := by decide

/-! ### Decoding: a word of each command, from 30_encoding R91, R92 -/

theorem test_decode_nop : decode 0b00000000000000000000000000000000#32 = .ok .nop := by decide
theorem test_decode_gfAdd : decode 0b00000000000000000000000000000001#32 = .ok .gfAdd := by decide
theorem test_decode_gfXtime : decode 0b00000000000000000000000000000010#32 = .ok .gfXtime := by decide
theorem test_decode_gfMul : decode 0b00000000000000000000000000000011#32 = .ok .gfMul := by decide
theorem test_decode_sbox : decode 0b00000000000000000000000000001000#32 = .ok .sbox := by decide
theorem test_decode_invSbox : decode 0b00000000000000000000000000001001#32 = .ok .invSbox := by decide
theorem test_decode_subBytes : decode 0b00000000000000000000000000010000#32 = .ok .subBytes := by decide
theorem test_decode_invSubBytes : decode 0b00000000000000000000000000010001#32 = .ok .invSubBytes := by decide
theorem test_decode_shiftRows : decode 0b00000000000000000000000000010010#32 = .ok .shiftRows := by decide
theorem test_decode_invShiftRows : decode 0b00000000000000000000000000010011#32 = .ok .invShiftRows := by decide
theorem test_decode_mixColumns : decode 0b00000000000000000000000000010100#32 = .ok .mixColumns := by decide
theorem test_decode_invMixColumns : decode 0b00000000000000000000000000010101#32 = .ok .invMixColumns := by decide
theorem test_decode_addRk : decode 0b00000000000000000000000000010110#32 = .ok .addRk := by decide
theorem test_decode_addRkFwd : decode 0b00000000000000000000101000010111#32 = .ok (.addRkFwd 10) := by decide
theorem test_decode_addRkEqi : decode 0b00000000000000001111111100011000#32 = .ok (.addRkEqi 255) := by decide
theorem test_decode_loadKey : decode 0b00000000000000000000000000100000#32 = .ok .loadKey := by decide
theorem test_decode_cipher : decode 0b00000000000000000000000000110000#32 = .ok .cipher := by decide
theorem test_decode_invCipher : decode 0b00000000000000000000000000110001#32 = .ok .invCipher := by decide
theorem test_decode_eqInvCipher : decode 0b00000000000000000000000000110010#32 = .ok .eqInvCipher := by decide

theorem test_reject_opcode : decode 0x00000004#32 = .error .unassignedOpcode := by decide
theorem test_reject_reserved : decode 0x00010000#32 = .error .reservedNonzero := by decide
theorem test_reject_round : decode 0x00000108#32 = .error .unusedRoundNonzero := by decide
theorem test_reject_length : decodeBytes [0x00#8, 0x00#8] = .error .notOneWord := by decide
theorem test_decode_bytes_little_endian : decodeBytes [0x17#8, 0x0A#8, 0x00#8, 0x00#8] = .ok (.addRkFwd 10) := by decide
theorem test_decode_table_word : decodeTableWord 16 0x0A17 = some (.addRkFwd 10) := by decide

/-! ### Housekeeping (section 6; 45_housekeeping R220) -/

theorem test_nop_clears_err : seen State.status (exec .nop (State.reset.setErr .illegal)) = some State.reset.status := by decide
theorem test_nop_platform : seen (·.status.err) (exec .nop bigEndian) = some .platform := by decide

/-! ### The field unit and the S-box (sections 2 and 3) -/

theorem test_gfAdd : seen State.gfres (exec .gfAdd (gf 0x57#8 0x83#8)) = some 0xD4#8 := by decide
theorem test_gfAdd_self : seen State.gfres (exec .gfAdd (gf 0xFF#8 0xFF#8)) = some 0x00#8 := by decide
theorem test_gfXtime_reduced : seen State.gfres (exec .gfXtime (gf 0x80#8 0x00#8)) = some 0x1B#8 := by decide
theorem test_gfXtime_plain : seen State.gfres (exec .gfXtime (gf 0x57#8 0xFF#8)) = some 0xAE#8 := by decide
theorem test_gfMul : seen State.gfres (exec .gfMul (gf 0x57#8 0x83#8)) = some 0xC1#8 := by decide
theorem test_gfMul_ones : seen State.gfres (exec .gfMul (gf 0xFF#8 0xFF#8)) = some 0x13#8 := by decide
theorem test_sbox_53 : seen State.gfres (exec .sbox (gf 0x53#8 0x00#8)) = some 0xED#8 := by decide
theorem test_sbox_00 : seen State.gfres (exec .sbox (gf 0x00#8 0x53#8)) = some 0x63#8 := by decide
theorem test_invSbox_ED : seen State.gfres (exec .invSbox (gf 0xED#8 0x00#8)) = some 0x53#8 := by decide
theorem test_invSbox_1B : seen State.gfres (exec .invSbox (gf 0x1B#8 0x00#8)) = some 0x44#8 := by decide

/-! ### The round transformations (sections 4.1 and 4.2) -/

theorem test_subBytes :
    seen State.state (exec .subBytes x0) = some (block 0x637c777bf26b6fc53001672bfed7ab76) := by decide +kernel
theorem test_invSubBytes :
    seen State.state (exec .invSubBytes x0) = some (block 0x52096ad53036a538bf40a39e81f3d7fb) := by decide +kernel
theorem test_shiftRows :
    seen State.state (exec .shiftRows x0) = some (block 0x00050a0f04090e03080d02070c01060b) := by decide +kernel
theorem test_invShiftRows :
    seen State.state (exec .invShiftRows x0) = some (block 0x000d0a0704010e0b0805020f0c090603) := by decide +kernel
theorem test_mixColumns :
    seen State.state (exec .mixColumns x0) = some (block 0x02070005060304010a0f080d0e0b0c09) := by decide +kernel
theorem test_mixColumns_columns :
    seen State.state (exec .mixColumns (withBlock 0xdb135345f20a225cd4d4d4d52d26314c)) =
      some (block 0x8e4da1bc9fdc589dd5d5d7d64d7ebdf8) := by decide +kernel
theorem test_invMixColumns :
    seen State.state (exec .invMixColumns x0) = some (block 0x0a0f080d0e0b0c090207000506030401) := by decide +kernel
theorem test_invMixColumns_columns :
    seen State.state (exec .invMixColumns (withBlock 0xdb135345f20a225cd4d4d4d52d26314c)) =
      some (block 0x32a41d55aec36982ddd9dfdaa05050d6) := by decide +kernel
theorem test_addRk_ones :
    seen State.state (exec .addRk { x0 with rkin := Vector.replicate 16 0xFF#8 }) =
      some (block 0xfffefdfcfbfaf9f8f7f6f5f4f3f2f1f0) := by decide +kernel

/-! ### ADDRK_FWD and ADDRK_EQI (sections 4.3 and 7.1), round key 10 of V-KAT-128 laid in from section 5.1 -/

/-- The plaintext of V-KAT-128 and round key 10 of its key, in W and DW. -/
def lastRoundKey : State :=
  let m := roundKeyAt 10 0x13111d7fe3944a17f307a78b4d2b30c5 []
  handKeyed m m 0x00112233445566778899aabbccddeeff

theorem test_addRkFwd_10 : seen State.state (exec (.addRkFwd 10) lastRoundKey) =
    some (block 0x13003f4ca7c12c607b9e0d3081f6de3a) := by decide +kernel
theorem test_addRkFwd_11 : seen (fun t => (t.status.err, t.state)) (exec (.addRkFwd 11) lastRoundKey) =
    some (.operand, block 0x00112233445566778899aabbccddeeff) := by decide +kernel
theorem test_addRkEqi_10 : seen State.state (exec (.addRkEqi 10) lastRoundKey) =
    some (block 0x13003f4ca7c12c607b9e0d3081f6de3a) := by decide +kernel
theorem test_addRkEqi_no_key : seen State.status (exec (.addRkEqi 11) State.reset) =
    some { err := .noKey, keyed := false, nk := 0#4, nr := 0#4 } := by decide

/-! ### The key schedule (sections 5 and 5.2) -/

theorem test_expansion_128_last_word :
    (keyExpansion .aes128 (bytesOfHex 16 0x2b7e151628aed2a6abf7158809cf4f3c)).getD 43 zeroWord =
      #v[0xb6#8, 0x63#8, 0x0c#8, 0xa6#8] := by decide +kernel
theorem test_expansion_192_last_word :
    (keyExpansion .aes192 (bytesOfHex 24 0x8e73b0f7da0e6452c810f32b809079e562f8ead2522c6b7b)).getD 51 zeroWord =
      #v[0x01#8, 0x00#8, 0x22#8, 0x02#8] := by decide +kernel
theorem test_expansion_256_last_word :
    (keyExpansion .aes256
      (bytesOfHex 32 0x603deb1015ca71be2b73aef0857d77811f352c073b6108d72d9810a30914dff4)).getD 59 zeroWord =
      #v[0x70#8, 0x6c#8, 0x63#8, 0x1e#8] := by decide +kernel
theorem test_loadKey_192_status : seen State.status (exec .loadKey (ready 0x18#8 0)) =
    some { err := .ok, keyed := true, nk := 6#4, nr := 12#4 } := by decide
theorem test_loadKey_config : seen (fun t => (t.status, t.w, t.dw)) (exec .loadKey { lastRoundKey with
    ctrl := { traceEn := false, bo := false, keylen := 20#8 } }) =
    some ({ err := .config, keyed := false, nk := 0#4, nr := 0#4 }, [], []) := by decide

/-! ### The engines (section 8.2): the first records of V-KAT-128, the round keys they use laid in by hand -/

/-- TAG and DATA of record `k` of the trace. -/
def recordAt (k : Nat) (t : State) : Option (BitVec 16 × Block) := (t.trace[k]?).map fun r => (r.tag, r.data)

/-- Round keys 0 and 1 of V-KAT-128 (section 5.1) and its plaintext. -/
def cipherStart : State :=
  handKeyed
    (roundKeyAt 1 0xd6aa74fdd2af72fadaa678f1d6ab76fe (roundKeyAt 0 0x000102030405060708090a0b0c0d0e0f []))
    [] 0x00112233445566778899aabbccddeeff

/-- Round keys 10 and 9 of V-KAT-128: record 36 of CIPHER's trace is record 35 with round key 9 added. -/
def invCipherStart : State :=
  handKeyed
    (roundKeyAt 10 0x13111d7fe3944a17f307a78b4d2b30c5 (roundKeyAt 9 0x549932d1f08557681093ed9cbe2c974e []))
    [] 0x69c4e0d86a7b0430d8cdb78070b4c55a

/-- Eq-inv round key 10 of V-KAT-128, the only one that records 0 to 3 use. -/
def eqInvCipherStart : State :=
  handKeyed [] (roundKeyAt 10 0x13111d7fe3944a17f307a78b4d2b30c5 []) 0x69c4e0d86a7b0430d8cdb78070b4c55a

theorem test_cipher_record_4 : seen (recordAt 4) (exec .cipher cipherStart) =
    some (some (0x0001#16, block 0x89d810e8855ace682d1843d8cb128fe4)) := by decide +kernel
theorem test_cipher_40_records : seen (fun t => t.trace.length) (exec .cipher cipherStart) = some 40 := by decide +kernel
theorem test_invCipher_record_4 : seen (recordAt 4) (exec .invCipher invCipherStart) =
    some (some (0x0169#16, block 0x54d990a16ba09ab596bbf40ea111702f)) := by decide +kernel
theorem test_invCipher_no_key : seen (fun t => t.status.err) (exec .invCipher State.reset) = some .noKey := by decide
theorem test_eqInvCipher_record_3 : seen (recordAt 3) (exec .eqInvCipher eqInvCipherStart) =
    some (some (0x0269#16, block 0x4773b91ff72f354361cb018ea1e6cf2c)) := by decide +kernel
theorem test_eqInvCipher_trace_off : seen State.trace (exec .eqInvCipher
    { eqInvCipherStart with ctrl := { traceEn := false, bo := false, keylen := 0x10#8 } }) = some [] := by decide +kernel

/-! ### The bus (section 7.2) -/

/-- What a 32-bit read at `r` returns after a 32-bit write of `v` at `off`. -/
def writeThenRead (off : Nat) (v : BusWord) (r : Nat) : Option BusWord :=
  (seen (fun t => (busRead t r 4).toOption) (busWrite State.reset off 4 v)).join

theorem test_bus_ctrl_keeps : writeThenRead 0x000 0xFFFFFFFF#32 0x000 = some 0x0000FF03#32 := by decide
theorem test_bus_status_read_only : writeThenRead 0x008 0xFFFFFFFF#32 0x008 = some 0x00000000#32 := by decide
theorem test_bus_gfres_read_only : writeThenRead 0x014 0x000000FF#32 0x014 = some 0x00000000#32 := by decide
theorem test_bus_gfop_keeps : writeThenRead 0x010 0xFFFFFFFF#32 0x010 = some 0x0000FFFF#32 := by decide
theorem test_bus_w_read_only : writeThenRead 0x100 0x12345678#32 0x100 = some 0x00000000#32 := by decide
theorem test_bus_state_lanes : seen (fun t => (t.state[0], t.state[1], t.state[2], t.state[3]))
    (busWrite State.reset 0x020 4 0x33221100#32) = some (0x00#8, 0x11#8, 0x22#8, 0x33#8) := by decide
theorem test_bus_state_half : seen (fun t => (busRead t 0x020 4).toOption)
    (busWrite State.reset 0x022 2 0x0000BBAA#32) = some (some 0xBBAA0000#32) := by decide
theorem test_bus_status_word : readLanes lastRoundKey 0x008 4 = 0x0A040100#32 := by decide
/-- The STATUS words of programs P3 and P4 (95_test_vectors section 9): their steps P4 5, 11, 2, 14 and P3 21. -/
theorem test_bus_status_error_words : [Status.mk .config false 0#4 0#4, .mk .platform true 6#4 12#4,
    .mk .noKey false 0#4 0#4, .mk .illegal true 6#4 12#4, .mk .operand true 4#4 10#4].map Status.word =
      [0x00000001#32, 0x0C060102#32, 0x00000003#32, 0x0C060104#32, 0x0A040105#32] := by decide
theorem test_bus_misaligned : accessFault 0x021 2 = some (.misaligned .offset) ∧
    accessFault 0x002 4 = some (.misaligned .offset) := by decide
/-- R66: BusError(misaligned) for a size that is not 1, 2 or 4, at an aligned offset and at another. -/
theorem test_bus_size : accessFault 0x000 3 = some (.misaligned .unsupportedSize) ∧
    accessFault 0x000 0 = some (.misaligned .unsupportedSize) ∧
    ∃ c, accessFault 0x001 3 = some (.misaligned c) := ⟨by decide, by decide, _, rfl⟩
theorem test_bus_unmapped : accessFault 0x00C 1 = some .unmapped ∧ accessFault 0x018 4 = some .unmapped ∧
    accessFault 0x060 4 = some .unmapped ∧ accessFault 0x1F0 1 = some .unmapped ∧ accessFault 0x2F0 4 = some .unmapped ∧
    accessFault 0xFFC 4 = some .unmapped := by decide
theorem test_bus_subword_cmd : seen (fun t => (t.responses, t.status.err))
    (step { sent [.write 0x006#12 2 0x00000001#32] with status := { State.reset.status with err := .config } }) =
      some ([.error .subwordCmd], .config) := by decide

/-! ### Steps -/

theorem test_reset_memory_wf : Memory.wf State.reset.w ∧ Memory.wf State.reset.dw := by decide
theorem test_fetch_word : seen (fun t => (t.status.err, t.responses)) (step (State.reset.withFetchWord 8 0x30)) =
    some (.noKey, [.written]) := by decide
theorem test_fetch_word_round : seen (fun t => t.status.err) (step (lastRoundKey.withFetchWord 16 0x0B17)) =
    some .operand := by decide
theorem test_step_idle : seen State.responses (step State.reset) = some [] := by decide
theorem test_step_read_status : seen State.responses (step (lastRoundKey.setPending [.read 0x008#12 4])) =
    some [.data 4 0x0A040100#32] := by decide
theorem test_step_write_gfop : seen (fun t => (t.gfop, t.responses)) (step (sent [.write 0x010#12 4 0xFFFF8357#32])) =
    some ({ a := 0x57#8, b := 0x83#8 }, [.written]) := by decide
theorem test_step_illegal_word : seen (fun t => (t.status.err, t.responses)) (step (sent [.write 0x004#12 4 0x00010000#32])) =
    some (.illegal, [.written]) := by decide
theorem test_step_read_unmapped : seen State.responses (step (sent [.read 0x00C#12 1])) = some [.error .unmapped] := by decide

/-! ### States that meet the hypotheses of the obligations -/

/-- A keyed state of each size is legal. -/
theorem legal_loaded (ks : KeySize) : LegalState (loaded ks) where
  formW := forwardSchedule_form ks _
  formDW := eqInvSchedule_form ks _
  unkeyed h := nomatch h
  keyed _ := ⟨ks, _, KeySize.nk_toNat ks, KeySize.nr_toNat ks, rfl, rfl⟩

/-- The three ready states and their Nk. -/
theorem ready_to_load : ReadyToLoad (ready 0x10#8 0) 4 ∧ ReadyToLoad (ready 0x18#8 0) 6 ∧ ReadyToLoad (ready 0x20#8 0) 8 := by
  decide

/-- Steps from states with one event to come answer a next state. -/
theorem step_sent (e : BusEvent) (s : State) (h : s.pending = [e]) : ∃ t, step s = .next t := by
  rw [step_of_pending h]; exact serve_answers e _

theorem witness_ResetPulseRestoresResetState : (sent [.reset]).pending = .reset :: [] := rfl

theorem legal_pending {s : State} (h : LegalState s) (p : List BusEvent) : LegalState (s.setPending p) :=
  ⟨h.formW, h.formDW, h.unkeyed, h.keyed⟩

theorem witness_StepKeepsInvariant : ∃ s t, LegalState s ∧ s.status.keyed = true ∧
    s.pending = [.write 0x004#12 4 0x00000030#32] ∧ step s = .next t := by
  obtain ⟨t, ht⟩ := step_sent (.write 0x004#12 4 0x00000030#32) ((loaded .aes128).setPending _)
    (State.setPending_pending _ _)
  exact ⟨_, t, legal_pending (legal_loaded _) _, rfl, State.setPending_pending _ _, ht⟩

theorem witness_RunsFromResetKeepSchedulesLegal_unkeyed :
    ∃ t, Host.Core.run core 0 { State.reset with pending := [] } = .next t ∧ t.status.keyed = false := ⟨_, rfl, rfl⟩

/-- Reset, then KEYLEN = 16 written. -/
def keylenWritten : State :=
  { State.reset with ctrl := { traceEn := false, bo := false, keylen := 0x10#8 }, responses := [.written] }

theorem witness_RunsFromResetKeepSchedulesLegal_keyed : ∃ t,
    Host.Core.run core 2 { State.reset with
      pending := [.write 0x000#12 4 0x00001000#32, .write 0x004#12 4 0x00000020#32] } = .next t ∧
    t.status.keyed = true := by
  have h1 : step { State.reset with pending := [.write 0x000#12 4 0x00001000#32, .write 0x004#12 4 0x00000020#32] } =
      .next { keylenWritten with pending := [.write 0x004#12 4 0x00000020#32] } := rfl
  obtain ⟨t, ht, hk⟩ : ∃ t, exec .loadKey keylenWritten = .next t ∧ t.status.keyed = true := ⟨_, rfl, rfl⟩
  have hx : execute 0x00000020#32 keylenWritten = .next t := ht
  exact ⟨t.respond .written, (run_succ 1 h1).trans ((run_succ 0 (step_of_command rfl hx)).trans (run_zero _)), hk⟩

theorem witness_StepRunsDecodedCommand :
    (sent [.write 0x004#12 4 0x0000FF18#32]).pending = .write 0x004#12 4 0x0000FF18#32 :: [] ∧
    decode 0x0000FF18#32 = .ok (.addRkEqi 255) ∧ (Instr.addRkEqi 255).wellFormed = true ∧
    (sent [.write 0x004#12 4 0x00010000#32]).pending = .write 0x004#12 4 0x00010000#32 :: [] ∧
    decode 0x00010000#32 = .error .reservedNonzero := by decide

theorem witness_DecodeReadsBackEncode : (Instr.addRkFwd 0).wellFormed = true ∧ (Instr.addRkEqi 255).wellFormed = true := by
  decide

theorem witness_LegalWordsAreEncodings : decode 0x0000FF17#32 = .ok (.addRkFwd 255) ∧ decode 0x00000032#32 = .ok .eqInvCipher := by
  decide

/-- Each range of illegal opcodes at both its ends, and the two other causes at theirs. -/
theorem witness_IllegalEncodingsFail : State.reset.ctrl.bo = false ∧ bigEndian.ctrl.bo = true ∧
    [0x04#32, 0x07#32, 0x0A#32, 0x0F#32, 0x19#32, 0x1F#32, 0x21#32, 0x2F#32, 0x33#32, 0xFF#32, 0x00010000#32, 0x80000017#32,
      0x00000116#32, 0x00000120#32].all (fun v => decide (IllegalWord v)) = true ∧
    [0x03#32, 0x0000FF17#32, 0x0000FF18#32, 0x00000032#32].any (fun v => decide (IllegalWord v)) = false := by
  refine ⟨rfl, rfl, ?_, ?_⟩ <;> decide +kernel

/-- Every failing code is reported by some word in some state, in the rows of section 7.1. -/
theorem witness_FailedCommandKeepsState :
    reportedCode 0x00#32 bigEndian = .platform ∧ reportedCode 0x04#32 State.reset = .illegal ∧
    reportedCode 0x30#32 State.reset = .noKey ∧ reportedCode 0x0B17#32 lastRoundKey = .operand ∧
    reportedCode 0x20#32 State.reset = .config := by decide

theorem witness_PlatformErrorExactlyWhileBo : bigEndian.ctrl.bo = true ∧ State.reset.ctrl.bo = false := by decide

theorem witness_ConfigErrorOnlyFromLoadKey :
    (State.reset.ctrl.bo = false ∧ State.reset.ctrl.keylen.toNat ∉ [16, 24, 32]) ∧
    ∃ t, execute 0x00000020#32 State.reset = .next t ∧ t.status.err = .config := ⟨by decide, _, rfl, rfl⟩

theorem witness_CommandsStraightAfterReset : Instr.nop ∈ [Instr.nop, .gfAdd, .gfXtime, .gfMul, .sbox, .invSbox, .subBytes,
    .invSubBytes, .shiftRows, .invShiftRows, .mixColumns, .invMixColumns, .addRk] ∧
    Instr.addRkFwd 0 ∈ [Instr.addRkFwd 0, .addRkEqi 0, .cipher, .invCipher, .eqInvCipher] := by decide

/-- The hypotheses of `CommonChecks`, `PlainCommand` and `BlockCommand`, for each opcode they are used with: an illegal
word of the opcode with BO = 0, and a state with BO = 1. -/
theorem witness_common_checks : State.reset.ctrl.bo = false ∧ bigEndian.ctrl.bo = true ∧
    ∀ op ∈ [0x00#8, 0x01#8, 0x02#8, 0x03#8, 0x08#8, 0x09#8, 0x10#8, 0x11#8, 0x12#8, 0x13#8, 0x14#8, 0x15#8, 0x16#8],
      fieldOpcode (wordOf op 0x01#8) = op ∧ wordOf op 0x01#8 ≠ wordOf op 0x00#8 := by decide

theorem witness_NopOnlyWritesErr : fieldOpcode 0x00000100#32 = 0x00#8 ∧ 0x00000100#32 ≠ wordOf 0x00#8 0x00#8 := by decide
theorem witness_GfCommandsCompute : fieldOpcode 0x00010003#32 = 0x03#8 ∧ 0x00010003#32 ≠ wordOf 0x03#8 0x00#8 := by decide
theorem witness_SboxCommandsLookUp : fieldOpcode 0x00000108#32 = 0x08#8 ∧ 0x00000108#32 ≠ wordOf 0x08#8 0x00#8 := by decide
theorem witness_SubBytesCommandsCompute : fieldOpcode 0x00000110#32 = 0x10#8 ∧ 0x00000110#32 ≠ wordOf 0x10#8 0x00#8 := by decide
theorem witness_ShiftRowsCommandsCompute : fieldOpcode 0x0000FF13#32 = 0x13#8 ∧ 0x0000FF13#32 ≠ wordOf 0x13#8 0x00#8 := by decide
theorem witness_MixColumnsCommandsCompute : fieldOpcode 0x80000014#32 = 0x14#8 ∧ 0x80000014#32 ≠ wordOf 0x14#8 0x00#8 := by decide
theorem witness_AddRkCommandComputes : fieldOpcode 0x00000116#32 = 0x16#8 ∧ 0x00000116#32 ≠ wordOf 0x16#8 0x00#8 := by decide

theorem witness_FieldLaws : (0x53#8 : Byte) ≠ 0x00#8 := by decide
theorem witness_SboxTablesInvertAndMatchConstruction : (0x01#8 : Byte) ≠ 0x00#8 := by decide

/-- Each clause at the boundary of ROUND: 10 is the last round key of AES-128, 11 the first that does not exist. -/
theorem witness_AddRkRoundCommandsCompute :
    bigEndian.ctrl.bo = true ∧ (State.reset.ctrl.bo = false ∧ State.reset.status.keyed = false) ∧
    ((loaded .aes128).ctrl.bo = false ∧ (loaded .aes128).status.keyed = true ∧ (loaded .aes128).status.nr.toNat < 11 ∧
      10 ≤ (loaded .aes128).status.nr.toNat ∧ 10 = (loaded .aes128).status.nr.toNat ∧ LegalState (loaded .aes128)) :=
  ⟨by decide, by decide, rfl, rfl, by decide, by decide, by decide, legal_loaded _⟩

theorem witness_TransformationLanes : ∃ s t a b : Block, s ≠ t ∧ a ≠ b ∧ s[15] = t[15] ∧ a[15] = b[15] ∧
    ∀ (r : Nat) (_ : r < 4), s[r + 4 * 3] = t[r + 4 * 3] :=
  ⟨block 0x1, block 0x01000000000000000000000000000001, block 0x02, block 0x02000000000000000000000000000002,
    by decide +kernel, by decide +kernel, by decide +kernel, by decide +kernel, by decide +kernel⟩

theorem witness_LoadKeyCompletes : ReadyToLoad (ready 0x10#8 0) 4 ∧ 16 * (max 4 4 + 7) ≤ 176 ∧
    ReadyToLoad (ready 0x20#8 0) 8 ∧ 16 * (max 4 8 + 7) ≤ 240 := by decide
theorem witness_LoadKeyExpandsKey : ReadyToLoad (ready 0x18#8 0) 6 ∧ (5 < 6 ∧ 6 ≤ 8) ∧ 6 ≤ 51 ∧ 51 < 4 * (max 4 6 + 7) ∧
    ReadyToLoad (ready 0x20#8 0) 8 ∧ 8 ≤ 59 ∧ 59 < 4 * (max 4 8 + 7) := by decide
theorem witness_LoadKeySchedulesConsistent : ReadyToLoad (ready 0x10#8 0) 4 ∧ 1 ≤ 9 ∧ 9 ≤ max 4 4 + 5 := by decide
theorem witness_LoadKeyReadsOnlyKeyPrefix : ∃ s t : State, s ≠ t ∧ s.ctrl = t.ctrl ∧ s.ctrl.bo = false ∧
    ∀ (j : Nat) (_ : j < 32), j < s.ctrl.keylen.toNat → s.key[j] = t.key[j] :=
  ⟨ready 0x10#8 0, ready 0x10#8 1, by decide +kernel, by decide, by decide, by decide +kernel⟩

theorem witness_OnlyLoadKeyWritesSchedules : ∃ s t, s.pending = [.write 0x004#12 4 0x00000020#32] ∧ step s = .next t := by
  obtain ⟨t, ht⟩ := step_sent _ (sent [.write 0x004#12 4 0x00000020#32]) rfl
  exact ⟨_, t, rfl, ht⟩

theorem witness_CipherIsItsSingleSteps : (loaded .aes128).ctrl.bo = false ∧ (loaded .aes128).status.keyed = true := ⟨rfl, rfl⟩
theorem witness_InvCipherIsItsSingleSteps : (loaded .aes192).ctrl.bo = false ∧ (loaded .aes192).status.keyed = true := ⟨rfl, rfl⟩
theorem witness_EqInvCipherIsItsSingleSteps : (loaded .aes256).ctrl.bo = false ∧ (loaded .aes256).status.keyed = true := ⟨rfl, rfl⟩
theorem witness_CipherRoundTrips : ReadyToLoad (ready 0x20#8 0) 8 := by decide
theorem witness_InverseCiphersAgree : LegalState (loaded .aes192) ∧ (loaded .aes192).ctrl.bo = false ∧
    (loaded .aes192).status.keyed = true := ⟨legal_loaded _, rfl, rfl⟩
theorem witness_CipherCommandsEmitAllRounds : LegalState (loaded .aes256) ∧ (loaded .aes256).ctrl.bo = false ∧
    (loaded .aes256).status.keyed = true ∧ (loaded .aes256).ctrl.traceEn = true := ⟨legal_loaded _, rfl, rfl, rfl⟩

theorem witness_TraceIsAppendOnly : ∃ s t, s.pending = [.write 0x004#12 4 0x00000030#32] ∧ step s = .next t ∧
    t.trace.length = 40 := by
  obtain ⟨t, ht, hl⟩ : ∃ t, exec .cipher cipherStart = .next t ∧ t.trace.length = 40 :=
    ⟨_, exec_cipher_of_keyed rfl rfl, by decide +kernel⟩
  have hx : execute 0x00000030#32 cipherStart = .next t := ht
  exact ⟨{ cipherStart with pending := [.write 0x004#12 4 0x00000030#32] }, t.respond .written, rfl,
    step_of_command rfl hx, hl⟩

theorem witness_GfCommandsFrame : ∃ t, exec .gfMul (gf 0x57#8 0x83#8) = .next t := exec_answers _ _
theorem witness_StateCommandsFrame : ∃ t, exec (.addRkFwd 10) lastRoundKey = .next t := exec_answers _ _
theorem witness_LoadKeyFrame : ∃ t, exec .loadKey (ready 0x10#8 0) = .next t := exec_answers _ _
theorem witness_CommandsKeepHostRegisters : ∃ t, execute 0x00000004#32 (ready 0x10#8 0) = .next t := execute_answers _ _

/-- A bus error, a sub-word write to CMD and a plain write are no commands. -/
theorem witness_OnlyCommandsWriteResults : ∀ e ∈ [BusEvent.read 0x00C#12 4, .write 0x004#12 2 0#32, .write 0x000#12 4 0x1000#32],
    (∃ t, step (sent [e]) = .next t) ∧ e ≠ .reset ∧ ∀ v, ¬ IssuesCommand e v := by
  intro e he
  refine ⟨step_sent e _ rfl, ?_⟩
  simp only [List.mem_cons, List.not_mem_nil, or_false] at he
  rcases he with rfl | rfl | rfl <;> exact ⟨by simp, by simp [IssuesCommand]⟩

/-- Both ends of every unmapped range, and the mapped bytes beside them. -/
theorem witness_UnmappedOffsetsExactly :
    (∀ o ∈ [0x00C, 0x00F, 0x018, 0x01F, 0x060, 0x0FF, 0x1F0, 0x1FF, 0x2F0, 0xFFF], mapped o = false ∧ UnmappedOffset o) ∧
    (∀ o ∈ [0x000, 0x00B, 0x010, 0x017, 0x020, 0x05F, 0x100, 0x1EF, 0x200, 0x2EF], mapped o = true ∧ ¬ UnmappedOffset o) ∧
    0x00C % 4 = 0 ∧ 3 < 4 ∧ mapped (0x00C + 3) = false ∧ 4 ∈ [1, 2, 4] := by decide

theorem witness_BusErrorsHaveNoEffect :
    (sent [.read 0x2EC#12 4]).pending = .read 0x2EC#12 4 :: [] ∧ GoodAccess 0x2EC 4 ∧
    ¬ GoodAccess 0x2F0 4 ∧ ¬ GoodAccess 0x002 4 ∧ ¬ GoodAccess 0x000 3 ∧
    (sent [.write 0x006#12 2 0#32]).pending = .write 0x006#12 2 0#32 :: [] ∧ GoodAccess 0x006 2 ∧
    GoodAccess 0x004 4 ∧ (sent [.write 0x05C#12 4 0#32]).pending = .write 0x05C#12 4 0#32 :: [] ∧ GoodAccess 0x05C 4 := by
  decide

/-- Each branch of the reason of a bus error, at an access that falls under it. -/
theorem witness_ReasonOfError : ReasonOfError 0x2EE 4 (.misaligned .offset) ∧ ReasonOfError 0x2F0 4 .unmapped ∧
    ReasonOfError 0x006 2 .subwordCmd ∧ ReasonOfError 0x000 3 (.misaligned .unsupportedSize) ∧
    ReasonOfError 0x000 0 (.misaligned .unsupportedSize) ∧ ¬ ReasonOfError 0x000 3 (.misaligned .offset) ∧
    ReasonOfError 0x001 3 (.misaligned .offset) ∧
    ¬ ReasonOfError 0x006 2 .unmapped ∧ ¬ ReasonOfError 0x2F0 4 (.misaligned .offset) := by decide

theorem witness_ReadsReturnLittleEndianLanes : GoodAccess 0x000 1 ∧ GoodAccess 0x00A 2 ∧ GoodAccess 0x1EC 4 := by
  decide
theorem witness_WritesSetExactlyTheirBytes : (GoodAccess 0x000 4 ∧ ¬ (0x004 ≤ 0x000 ∧ 0x000 < 0x008)) ∧
    (GoodAccess 0x008 4 ∧ ¬ (0x004 ≤ 0x008 ∧ 0x008 < 0x008)) ∧ (GoodAccess 0x05F 1 ∧ ¬ (0x004 ≤ 0x05F ∧ 0x05F < 0x008)) := by
  decide

theorem witness_ByteArraysInTheWindow : 15 < 16 ∧ 31 < 32 ∧ 239 < 240 ∧ mapped (0x100 + 239) = true ∧ mapped (0x200 + 239) = true := by
  decide

theorem witness_HostAddressesReachTheWindow :
    ∃ addr, addr < Config.base ∨ Config.base + 4096 ≤ addr := ⟨Config.base + 4096, .inr (Nat.le_refl _)⟩
theorem witness_LatencyIgnoresData : ∃ s t : State, s ≠ t ∧ s.ctrl = t.ctrl ∧ s.status = t.status :=
  ⟨State.reset, x0, by decide +kernel, rfl, rfl⟩

end Sys2Proof.Tests
end

section
/-! PROOFS. The state after reset (10_state R54). -/
namespace Sys2Proof.Machine

/-- The reserved bits of CTRL are 0 after reset, as every other bit of the word is (10_state R54). -/
theorem State.reset_ctrl_word : State.reset.ctrl.word = 0#32 := by decide

theorem State.reset_state_getElem (k : Nat) (h : k < 16) : State.reset.state[k] = 0x00#8 :=
  Vector.getElem_replicate h

theorem State.reset_rkin_getElem (k : Nat) (h : k < 16) : State.reset.rkin[k] = 0x00#8 :=
  Vector.getElem_replicate h

theorem State.reset_key_getElem (k : Nat) (h : k < 32) : State.reset.key[k] = 0x00#8 :=
  Vector.getElem_replicate h

/-- The two schedules hold no cell after reset, so that every index reads as the unlisted byte (log 8). -/
theorem State.reset_w_read (j : Nat) : Memory.read State.reset.w j = 0x00#8 := Memory.read_nil j

theorem State.reset_dw_read (j : Nat) : Memory.read State.reset.dw j = 0x00#8 := Memory.read_nil j

/-- Settles O1: the scalar fields are those `State.reset` is built with, and the byte arrays and the schedules are
read by the lemmas above. -/
theorem resetStateIsAsListed : Obligations.ResetStateIsAsListed := by
  unfold Obligations.ResetStateIsAsListed
  have blocks (k : Nat) (h : k < 16) : State.reset.state[k] = 0x00#8 ∧ State.reset.rkin[k] = 0x00#8 :=
    ⟨State.reset_state_getElem k h, State.reset_rkin_getElem k h⟩
  have schedules (j : Nat) (_ : j < 240) :
      Memory.read State.reset.w j = 0x00#8 ∧ Memory.read State.reset.dw j = 0x00#8 :=
    ⟨State.reset_w_read j, State.reset_dw_read j⟩
  exact ⟨rfl, rfl, rfl, State.reset_ctrl_word, -- CTRL
    rfl, rfl, rfl, rfl, -- STATUS
    rfl, rfl, rfl, -- GFOP, GFRES
    blocks, State.reset_key_getElem, schedules, rfl⟩

end Sys2Proof.Machine
end

section
/-! PROOFS. The decoder said once, from a word's own bits: when it accepts, and what a rejected word does
(30_encoding R91 to R95). -/
namespace Sys2Proof.Machine

open Sys2Proof.Claims

/-! ### The fields as numbers (30_encoding R91) -/

theorem fieldOpcode_toNat (v : BusWord) : (fieldOpcode v).toNat = v.toNat % 256 := by simp [fieldOpcode]

theorem fieldRound_toNat (v : BusWord) : (fieldRound v).toNat = v.toNat / 256 % 256 := by
  simp [fieldRound, Nat.shiftRight_eq_div_pow]

/-- RSV is the top of the 32-bit word, so nothing is cut off above it. -/
theorem fieldRsv_toNat (v : BusWord) : (fieldRsv v).toNat = v.toNat / 65536 := by
  have hv : v.toNat < 4294967296 := v.isLt
  simp only [fieldRsv, BitVec.extractLsb'_toNat, Nat.shiftRight_eq_div_pow]
  omega

theorem fieldRound_eq_zero_iff (v : BusWord) : fieldRound v = 0 ↔ v.toNat / 256 % 256 = 0 := by
  rw [BitVec.toNat_eq, fieldRound_toNat]; rfl

theorem fieldRsv_eq_zero_iff (v : BusWord) : fieldRsv v = 0 ↔ v.toNat / 65536 = 0 := by
  rw [BitVec.toNat_eq, fieldRsv_toNat]; rfl

/-! ### The opcode map (30_encoding R92) -/

/-- The gaps that R95 lists are exactly the opcodes R92 does not assign. -/
theorem instrOfOpcode_eq_none_iff (op : Byte) (round : Nat) :
    instrOfOpcode op round = none ↔ UnassignedOpcode op.toNat := by
  have hop : op.toNat < 256 := op.isLt
  unfold instrOfOpcode
  split
  case h_20 =>
    simp only [imp_false, true_iff] at *
    omega
  all_goals
    simp only [reduceCtorEq, false_iff]
    omega

theorem usesRound_eq_false_iff_of_instrOfOpcode {op : Byte} {round : Nat} {i : Instr}
    (h : instrOfOpcode op round = some i) : i.usesRound = false ↔ op.toNat ≠ 0x17 ∧ op.toNat ≠ 0x18 := by
  unfold instrOfOpcode at h
  split at h
  case h_20 => cases h
  all_goals
    cases h
    simp [Instr.usesRound, *]

/-! ### The decoder (30_encoding R95, R96) -/

/-- What a decoded word passed: the opcode map and the two checks of fields that must be zero. -/
theorem decode_eq_ok_iff (v : BusWord) (i : Instr) :
    decode v = .ok i ↔ instrOfOpcode (fieldOpcode v) (fieldRound v).toNat = some i ∧ fieldRsv v = 0 ∧
      (i.usesRound = false → fieldRound v = 0) := by
  unfold decode
  cases instrOfOpcode (fieldOpcode v) (fieldRound v).toNat with
  | none => simp
  | some j =>
    simp only [Option.some.injEq]
    split
    next hrsv =>
      simp only [reduceCtorEq, false_iff]
      exact fun ⟨_, hzero, _⟩ => hrsv hzero
    next hrsv =>
      split
      next hround =>
        simp only [reduceCtorEq, false_iff]
        rintro ⟨rfl, -, hzero⟩
        exact hround.1 (hzero hround.2)
      next hround =>
        simp only [Except.ok.injEq]
        refine ⟨?_, And.left⟩
        rintro rfl
        exact ⟨rfl, not_not.1 hrsv, fun huses => by_contra fun hne => hround ⟨hne, huses⟩⟩

/-- The decoder rejects exactly the words of R95's list. -/
theorem exists_decode_eq_ok_iff (v : BusWord) : (∃ i, decode v = .ok i) ↔ ¬ IllegalWord v := by
  have hnone := instrOfOpcode_eq_none_iff (fieldOpcode v) (fieldRound v).toNat
  rw [fieldOpcode_toNat] at hnone
  simp only [decode_eq_ok_iff, fieldRsv_eq_zero_iff, fieldRound_eq_zero_iff]
  cases hmap : instrOfOpcode (fieldOpcode v) (fieldRound v).toNat with
  | none =>
    have hgap : UnassignedOpcode (v.toNat % 256) := hnone.1 hmap
    simp [IllegalWord, hgap]
  | some i =>
    have hassigned : ¬ UnassignedOpcode (v.toNat % 256) := hnone.not.1 (by simp [hmap])
    have huses := usesRound_eq_false_iff_of_instrOfOpcode hmap
    rw [fieldOpcode_toNat] at huses
    simp only [Option.some.injEq, exists_eq_left', IllegalWord, hassigned, huses, false_or, ne_eq, not_or, not_not,
      not_and']

/-! ### A rejected word -/

theorem execute_of_illegalWord {v : BusWord} (hv : IllegalWord v) (s : State) :
    execute v s = .next (withErr s (if s.ctrl.bo then .platform else .illegal)) := by
  have hrej : ¬ ∃ i, decode v = .ok i := fun hok => (exists_decode_eq_ok_iff v).1 hok hv
  unfold execute
  split
  next i hdec => exact absurd ⟨i, hdec⟩ hrej
  next => exact illegalCommand_eq s

/-- Settles O12: an illegal word is rejected and fails as the rule for rejected words says, and a word that is not
illegal is accepted. -/
theorem illegalEncodingsFail : Obligations.IllegalEncodingsFail := by
  unfold Obligations.IllegalEncodingsFail
  refine ⟨fun v s hv hbo => ?_, fun v s hv hbo => ?_, fun v hv => (exists_decode_eq_ok_iff v).2 hv⟩
  · rw [execute_of_illegalWord hv, hbo]; rfl
  · rw [execute_of_illegalWord hv, hbo]; rfl

end Sys2Proof.Machine
end

section
/-! PROOFS. A command that does not use ROUND passes the common checks (30_encoding R94, R95). -/
namespace Sys2Proof.Machine

open Sys2Proof.Claims

theorem wordOf_zero_toNat (op : Byte) : (wordOf op 0x00#8).toNat = op.toNat := by
  have hop : op.toNat < 256 := op.isLt
  simp only [wordOf, BitVec.setWidth_zero, BitVec.zero_shiftLeft, BitVec.or_zero, BitVec.toNat_setWidth]
  omega

/-- A legal word of an opcode that does not use ROUND has nothing but its opcode set. -/
theorem illegalWord_of_ne_wordOf {op : Byte} {v : BusWord} (hfwd : op ≠ 0x17#8) (heqi : op ≠ 0x18#8)
    (hop : fieldOpcode v = op) (hne : v ≠ wordOf op 0x00#8) : IllegalWord v := by
  by_contra hlegal
  have hnat : v.toNat % 256 = op.toNat := by rw [← fieldOpcode_toNat, hop]
  rw [Ne, BitVec.toNat_eq, BitVec.toNat_ofNat] at hfwd heqi
  refine hne (BitVec.eq_of_toNat_eq ?_)
  rw [wordOf_zero_toNat]
  unfold IllegalWord at hlegal
  omega

theorem commonChecks_of_decode {i : Instr} {op : Byte} (hfwd : op ≠ 0x17#8) (heqi : op ≠ 0x18#8)
    (hdec : decode (wordOf op 0x00#8) = .ok i) : CommonChecks i op := by
  refine ⟨hdec, fun v s hop hne hbo => ?_, fun s hbo => exec_of_bo i hbo⟩
  rw [execute_of_illegalWord (illegalWord_of_ne_wordOf hfwd heqi hop hne), hbo]
  rfl

end Sys2Proof.Machine
end

section
/-! PROOFS. The field operations: `gfMul` as a bilinear product, equal to the product of polynomials modulo 0x11B
(40_gf_arith R112), and the laws of R116. -/
namespace Sys2Proof.Machine

open Sys2Proof.Claims

/-! ### Maps of bytes that respect addition

A byte is the sum of the bytes `twoPow 8 i` of its bits, so a map that respects addition is known from its values at
those eight, and a product that does so in each operand from its values at 64 pairs. -/

/-- A map that takes sums to sums. -/
def XorLinear (f : Byte → Byte) : Prop := ∀ x y, f (x ^^^ y) = f x ^^^ f y

theorem XorLinear.map_zero {f : Byte → Byte} (hf : XorLinear f) : f 0#8 = 0#8 := by
  have h : f (0#8 ^^^ 0#8) = f 0#8 ^^^ f 0#8 := hf 0#8 0#8
  simpa using h

/-- The low `n + 1` bits of a byte are its low `n` bits and, when bit `n` is set, its power added. -/
theorem setWidth_succ_eq_xor_twoPow (x : Byte) (n : Nat) :
    (x.setWidth (n + 1)).setWidth 8 =
      (x.setWidth n).setWidth 8 ^^^ (if x.getLsbD n then BitVec.twoPow 8 n else 0#8) := by
  cases hbit : x.getLsbD n with
  | false => simp [BitVec.setWidth_setWidth_succ_eq_setWidth_setWidth_of_getLsbD_false hbit]
  | true =>
    rw [BitVec.setWidth_setWidth_succ_eq_setWidth_setWidth_or_twoPow_of_getLsbD_true hbit]
    ext k hk
    by_cases hkn : k = n <;> simp [hkn]

/-- Two linear maps that agree on the eight powers agree everywhere: induction on how many low bits are kept. -/
theorem XorLinear.ext {f g : Byte → Byte} (hf : XorLinear f) (hg : XorLinear g)
    (h : ∀ i < 8, f (BitVec.twoPow 8 i) = g (BitVec.twoPow 8 i)) (x : Byte) : f x = g x := by
  have low (n : Nat) (hn : n ≤ 8) : f ((x.setWidth n).setWidth 8) = g ((x.setWidth n).setWidth 8) := by
    induction n with
    | zero =>
      rw [BitVec.of_length_zero (x := x.setWidth 0), BitVec.setWidth_zero, hf.map_zero, hg.map_zero]
    | succ n ih =>
      rw [setWidth_succ_eq_xor_twoPow, hf, hg, ih (by omega)]
      split
      · rw [h n hn]
      · rw [hf.map_zero, hg.map_zero]
  simpa using low 8 le_rfl

/-- A product that distributes over addition on both sides. -/
structure XorBilinear (f : Byte → Byte → Byte) : Prop where
  left : ∀ b, XorLinear fun a => f a b
  right : ∀ a, XorLinear (f a)

theorem XorBilinear.swap {f : Byte → Byte → Byte} (hf : XorBilinear f) : XorBilinear fun a b => f b a :=
  ⟨hf.right, hf.left⟩

theorem XorBilinear.ext {f g : Byte → Byte → Byte} (hf : XorBilinear f) (hg : XorBilinear g)
    (h : ∀ i < 8, ∀ j < 8, f (BitVec.twoPow 8 i) (BitVec.twoPow 8 j) = g (BitVec.twoPow 8 i) (BitVec.twoPow 8 j))
    (a b : Byte) : f a b = g a b :=
  (hf.left b).ext (hg.left b) (fun i hi => (hf.right _).ext (hg.right _) (h i hi) b) a

/-! ### The model's product is bilinear -/

theorem gfMul_gfAdd_right (a b c : Byte) : gfMul a (gfAdd b c) = gfAdd (gfMul a b) (gfMul a c) :=
  congrArg Prod.fst (gfMulStep_foldl_add a (List.range 8) 0#8 0#8 b c)

/-- One pass of the loop for a sum of first operands; the doubled `b` does not depend on them. -/
theorem gfMulStep_add_left (a c p q b : Byte) (i : Nat) :
    gfMulStep (gfAdd a c) (gfAdd p q, b) i =
      (gfAdd (gfMulStep a (p, b) i).1 (gfMulStep c (q, b) i).1, xtime b) := by
  simp only [gfMulStep, gfAdd, BitVec.getLsbD_xor]
  cases a.getLsbD i <;> cases c.getLsbD i <;> simp only [Bool.xor_false, Bool.xor_true, Bool.not_true, Bool.not_false,
    if_true, Bool.false_eq_true, if_false, Prod.mk.injEq, and_true]
  · ac_rfl
  · ac_rfl
  · ac_nf
    simp

theorem gfMulStep_foldl_add_left (a c : Byte) (l : List Nat) (p q b : Byte) :
    (l.foldl (gfMulStep (gfAdd a c)) (gfAdd p q, b)).1 =
      gfAdd (l.foldl (gfMulStep a) (p, b)).1 (l.foldl (gfMulStep c) (q, b)).1 := by
  induction l generalizing p q b with
  | nil => rfl
  | cons i l ih =>
    simp only [List.foldl_cons]
    rw [gfMulStep_add_left, ih]
    rfl

theorem gfMul_gfAdd_left (a c b : Byte) : gfMul (gfAdd a c) b = gfAdd (gfMul a b) (gfMul c b) :=
  gfMulStep_foldl_add_left a c (List.range 8) 0#8 0#8 b

theorem xorBilinear_gfMul : XorBilinear gfMul where
  left b a c := gfMul_gfAdd_left a c b
  right := gfMul_gfAdd_right

theorem gfMul_comm (a b : Byte) : gfMul a b = gfMul b a :=
  xorBilinear_gfMul.ext xorBilinear_gfMul.swap (by decide) a b

/-! ### The product of polynomials is bilinear, and is the model's -/

/-- Two numbers to each of which `x` is added on a condition, added. -/
theorem condXor_xor_condXor (c d : Bool) (p q x : Nat) :
    (if c then p ^^^ x else p) ^^^ (if d then q ^^^ x else q) = if c ^^ d then (p ^^^ q) ^^^ x else p ^^^ q := by
  cases c <;> cases d <;> grind

theorem polyMod_xor (p q : Nat) : polyMod (p ^^^ q) = polyMod p ^^^ polyMod q := by
  refine List.foldl_hom₂ _ (· ^^^ ·) _ _ _ p q fun p q i => ?_
  rw [Nat.testBit_xor]
  exact condXor_xor_condXor _ _ p q _

theorem polyMul_xor_left (a c b : Nat) : polyMul (a ^^^ c) b = polyMul a b ^^^ polyMul c b := by
  refine List.foldl_hom₂ _ (· ^^^ ·) _ _ _ 0 0 fun p q i => ?_
  rw [Nat.testBit_xor]
  exact condXor_xor_condXor _ _ p q _

theorem polyMul_xor_right (a b c : Nat) : polyMul a (b ^^^ c) = polyMul a b ^^^ polyMul a c := by
  refine List.foldl_hom₂ _ (· ^^^ ·) _ _ _ 0 0 fun p q i => ?_
  rw [Nat.shiftLeft_xor_distrib]
  split
  · ac_rfl
  · rfl

theorem xorBilinear_fieldProduct : XorBilinear fieldProduct where
  left b a c := by simp only [fieldProduct, BitVec.toNat_xor, polyMul_xor_left, polyMod_xor, BitVec.ofNat_xor]
  right a b c := by simp only [fieldProduct, BitVec.toNat_xor, polyMul_xor_right, polyMod_xor, BitVec.ofNat_xor]

/-- "its result is the product of a and b as polynomials over GF(2), reduced" (40_gf_arith R112). -/
theorem gfMul_eq_fieldProduct (a b : Byte) : gfMul a b = fieldProduct a b :=
  xorBilinear_gfMul.ext xorBilinear_fieldProduct (by decide) a b

theorem xtime_eq_doubled (b : Byte) : xtime b = doubled b := by
  have htop : b.getLsbD 7 = decide (128 ≤ b.toNat) := BitVec.msb_eq_decide b
  simp only [xtime, doubled, gfAdd, htop, decide_eq_true_eq]

/-- Settles O19: the three words pass the common checks, and each result is the field's by the lemmas above. -/
theorem gfCommandsCompute : Obligations.GfCommandsCompute := by
  unfold Obligations.GfCommandsCompute
  refine ⟨⟨commonChecks_of_decode (by decide) (by decide) (by decide), fun s hbo => ?add⟩,
    ⟨commonChecks_of_decode (by decide) (by decide) (by decide), fun s hbo => ?xtime⟩,
    commonChecks_of_decode (by decide) (by decide) (by decide), fun s hbo => ?mul⟩
  case add => rw [exec_gfAdd_of_le hbo]; rfl
  case xtime => rw [exec_gfXtime_of_le hbo, xtime_eq_doubled]; rfl
  case mul => rw [exec_gfMul_of_le hbo, gfMul_eq_fieldProduct]; rfl

/-! ### Inverses

The core computes no inverse; the S-box is built on it, as `Aff(inv(b))` (41_sbox R135), and so each of its
entries holds the inverse, behind `aff`. -/

/-- The inverse of `aff`. -/
def invAff (y : Byte) : Byte := y.rotateLeft 1 ^^^ y.rotateLeft 3 ^^^ y.rotateLeft 6 ^^^ 0x05#8

theorem aff_invAff : ∀ y : Byte, aff (invAff y) = y := by decide

/-- The byte behind the S-box entry of a nonzero byte is its inverse. -/
theorem gfMul_invAff_sbox : ∀ b : Byte, b ≠ 0x00#8 → gfMul b (invAff (sbox b)) = 0x01#8 := by decide

/-- Settles O20: addition is XOR, the product is bilinear and symmetric, and the S-box holds the inverses. -/
theorem fieldLaws : Obligations.FieldLaws := by
  unfold Obligations.FieldLaws
  exact ⟨BitVec.xor_comm, BitVec.xor_assoc, fun _ => BitVec.xor_self, fun _ => BitVec.xor_zero, gfMul_comm,
    gfMul_gfAdd_right, fun a ha => ⟨_, gfMul_invAff_sbox a ha⟩⟩

end Sys2Proof.Machine
end

section
/-! PROOFS. The S-box tables as inverse permutations and as the construction of 41_sbox R135, and their two commands
(41_sbox R132 to R135). -/
namespace Sys2Proof.Machine

open Sys2Proof.Claims

/-! ### The two commands (41_sbox R132, R133) -/

/-- "no b has `SBox[b] = b`" (41_sbox R132): every entry of the table is compared with its index. -/
theorem sbox_ne_self : ∀ b : Byte, sbox b ≠ b := by decide

/-- Settles O21: both words pass the common checks, each command writes its table's entry, and the table has no fixed
point. -/
theorem sboxCommandsLookUp : Obligations.SboxCommandsLookUp := by
  unfold Obligations.SboxCommandsLookUp
  have lookUp : PlainCommand .sbox 0x08#8 fun s => { s with gfres := sbox s.gfop.a } :=
    ⟨commonChecks_of_decode (by decide) (by decide) (by decide), fun _ => exec_sbox_of_le⟩
  have invLookUp : PlainCommand .invSbox 0x09#8 fun s => { s with gfres := invSbox s.gfop.a } :=
    ⟨commonChecks_of_decode (by decide) (by decide) (by decide), fun _ => exec_invSbox_of_le⟩
  have entries : sbox 0x00#8 = 0x63#8 ∧ sbox 0x53#8 = 0xED#8 ∧ sbox 0xFF#8 = 0x16#8 ∧
      invSbox 0x63#8 = 0x00#8 ∧ invSbox 0x00#8 = 0x52#8 ∧ invSbox 0xED#8 = 0x53#8 ∧ invSbox 0xFF#8 = 0x7D#8 := by
    decide
  exact ⟨lookUp, invLookUp, sbox_ne_self, entries⟩

/-! ### The tables (41_sbox R134, R135) -/

/-- The half of the inverse law that the entries are read for (41_sbox R134). -/
theorem invSbox_sbox : Function.LeftInverse invSbox sbox := by
  unfold Function.LeftInverse
  decide

/-- The other half needs no second look at the tables: an injective map of a finite type is onto. -/
theorem sbox_invSbox : Function.RightInverse invSbox sbox :=
  invSbox_sbox.rightInverse_of_surjective (Finite.surjective_of_injective invSbox_sbox.injective)

theorem sbox_eq_aff_invAff (b : Byte) : sbox b = aff (invAff (sbox b)) := (aff_invAff (sbox b)).symm

/-- Settles O22: the inverse law is the two lemmas above, `SBox[0]` is read, and `invAff` of every other entry is the
inverse of its index. -/
theorem sboxTablesInvertAndMatchConstruction : Obligations.SboxTablesInvertAndMatchConstruction := by
  unfold Obligations.SboxTablesInvertAndMatchConstruction
  have zero : sbox 0x00#8 = aff 0x00#8 := by decide
  exact ⟨fun b => ⟨invSbox_sbox b, sbox_invSbox b⟩, zero,
    fun b hb => ⟨invAff (sbox b), gfMul_invAff_sbox b hb, sbox_eq_aff_invAff b⟩⟩

end Sys2Proof.Machine
end

section
/-! PROOFS. The commands that replace STATE by its image under a round transformation (42_round_transforms R140 to
R146, R150 to R156). -/
namespace Sys2Proof.Machine

open Sys2Proof.Claims

/-- A command that puts `g s` into STATE and ends with OK meets every relation that `g` does. -/
theorem blockCommand_of_exec {i : Instr} {op : Byte} {rel : State → Block → Prop} (g : State → Block)
    (checks : CommonChecks i op)
    (effect : ∀ {s : State}, s.ctrl.bo = false → exec i s = .next ((s.setState (g s)).setErr .ok))
    (hrel : ∀ s, rel s (g s)) : BlockCommand i op rel :=
  ⟨checks, fun s hbo => ⟨g s, hrel s, effect hbo⟩⟩

/-! ### The transformations by row and column (00_scope R13) -/

/-- The byte at index `r + 4c` lies in row `r`. -/
theorem rowCol_mod {r : Nat} (hr : r < 4) (c : Nat) : (r + 4 * c) % 4 = r := by omega

/-- The byte at index `r + 4c` lies in column `c`. -/
theorem rowCol_div {r : Nat} (hr : r < 4) (c : Nat) : (r + 4 * c) / 4 = c := by omega

theorem shiftRows_getElem_rowCol (s : Block) (r c : Nat) (hr : r < 4) (hc : c < 4) :
    (shiftRows s)[r + 4 * c] = s[r + 4 * ((c + r) % 4)] := by
  simp only [shiftRows_getElem, rowCol_mod hr, rowCol_div hr]

theorem invShiftRows_getElem_rowCol (s : Block) (r c : Nat) (hr : r < 4) (hc : c < 4) :
    (invShiftRows s)[r + 4 * c] = s[r + 4 * ((c + 4 - r) % 4)] := by
  simp only [invShiftRows_getElem, rowCol_mod hr, rowCol_div hr]

theorem mixWith_getElem_rowCol (m : Vector (Bytes 4) 4) (s : Block) (r c : Nat) (hr : r < 4) (hc : c < 4) :
    (mixWith m s)[r + 4 * c] = mixByte m[r] s c hc := by
  simp only [mixWith_getElem, rowCol_mod hr, rowCol_div hr]

/-! ### The matrices as circulants (42_round_transforms R144, R145) -/

/-- The matrix whose row `r` is `first` rotated right by `r` places. -/
def circulant (first : Bytes 4) : Vector (Bytes 4) 4 :=
  Vector.ofFn fun r => Vector.ofFn fun j => first[(4 + j.val - r.val) % 4]

theorem circulant_getElem (first : Bytes 4) (r j : Nat) (hr : r < 4) (hj : j < 4) :
    (circulant first)[r][j] = first[(4 + j - r) % 4] := by
  simp [circulant]

theorem mixMatrix_eq_circulant : mixMatrix = circulant #v[0x02, 0x03, 0x01, 0x01] := by decide

theorem invMixMatrix_eq_circulant : invMixMatrix = circulant #v[0x0E, 0x0B, 0x0D, 0x09] := by decide

/-- A row times a column, its products being those of polynomials. -/
theorem mixByte_eq_fieldProduct (row : Bytes 4) (s : Block) (c : Nat) (hc : c < 4) :
    mixByte row s c hc =
      fieldProduct row[0] s[4 * c] ^^^ fieldProduct row[1] s[1 + 4 * c] ^^^
      fieldProduct row[2] s[2 + 4 * c] ^^^ fieldProduct row[3] s[3 + 4 * c] := by
  simp only [mixByte, gfAdd, gfMul_eq_fieldProduct, BitVec.xor_assoc]

theorem mixWith_circulant_getElem (first : Bytes 4) (s : Block) (r c : Nat) (hr : r < 4) (hc : c < 4) :
    (mixWith (circulant first) s)[r + 4 * c] =
      fieldProduct first[(4 - r) % 4] s[4 * c] ^^^ fieldProduct first[(5 - r) % 4] s[1 + 4 * c] ^^^
      fieldProduct first[(6 - r) % 4] s[2 + 4 * c] ^^^ fieldProduct first[(7 - r) % 4] s[3 + 4 * c] := by
  rw [mixWith_getElem_rowCol _ _ _ _ hr hc, mixByte_eq_fieldProduct]
  simp only [circulant_getElem, Nat.reduceAdd]

/-! ### The commands (42_round_transforms R150 to R156) -/

/-- Settles O23: both words pass the common checks, and each byte of the new STATE is the table's entry. -/
theorem subBytesCommandsCompute : Obligations.SubBytesCommandsCompute := by
  unfold Obligations.SubBytesCommandsCompute
  exact ⟨blockCommand_of_exec (fun s => subBytes s.state)
      (commonChecks_of_decode (by decide) (by decide) (by decide)) exec_subBytes_of_le
      fun s => subBytes_getElem s.state,
    blockCommand_of_exec (fun s => invSubBytes s.state)
      (commonChecks_of_decode (by decide) (by decide) (by decide)) exec_invSubBytes_of_le
      fun s => invSubBytes_getElem s.state⟩

/-- Settles O24: both words pass the common checks, and the shifted STATE is read by row and column. -/
theorem shiftRowsCommandsCompute : Obligations.ShiftRowsCommandsCompute := by
  unfold Obligations.ShiftRowsCommandsCompute
  exact ⟨blockCommand_of_exec (fun s => shiftRows s.state)
      (commonChecks_of_decode (by decide) (by decide) (by decide)) exec_shiftRows_of_le
      fun s => shiftRows_getElem_rowCol s.state,
    blockCommand_of_exec (fun s => invShiftRows s.state)
      (commonChecks_of_decode (by decide) (by decide) (by decide)) exec_invShiftRows_of_le
      fun s => invShiftRows_getElem_rowCol s.state⟩

/-- Settles O25: both words pass the common checks, each matrix is the circulant of its first row, and `gfMul` is the
product of polynomials. -/
theorem mixColumnsCommandsCompute : Obligations.MixColumnsCommandsCompute := by
  unfold Obligations.MixColumnsCommandsCompute
  refine ⟨blockCommand_of_exec (fun s => mixColumns s.state)
      (commonChecks_of_decode (by decide) (by decide) (by decide)) exec_mixColumns_of_le
      fun s => ?mix,
    blockCommand_of_exec (fun s => invMixColumns s.state)
      (commonChecks_of_decode (by decide) (by decide) (by decide)) exec_invMixColumns_of_le
      fun s => ?invMix⟩
  case mix =>
    rw [mixColumns, mixMatrix_eq_circulant]
    exact mixWith_circulant_getElem _ s.state
  case invMix =>
    rw [invMixColumns, invMixMatrix_eq_circulant]
    exact mixWith_circulant_getElem _ s.state

/-- Settles O26: the word passes the common checks, and each byte of the new STATE is the sum of STATE's and RKIN's. -/
theorem addRkCommandComputes : Obligations.AddRkCommandComputes := by
  unfold Obligations.AddRkCommandComputes
  exact blockCommand_of_exec (fun s => addRoundKey s.state s.rkin)
    (commonChecks_of_decode (by decide) (by decide) (by decide)) exec_addRk_of_le
    fun s => addRoundKey_getElem s.state s.rkin

end Sys2Proof.Machine
end

section
/-! PROOFS. The schedules are LOAD_KEY's alone: no other command and no host write changes them (43_key_schedule
R181). -/
namespace Sys2Proof.Machine

open Sys2Proof.Claims

/-! ### The one word of LOAD_KEY -/

theorem opcode_of_instrOfOpcode {op : Byte} {round : Nat} {i : Instr} (h : instrOfOpcode op round = some i) :
    i.opcode = op := by
  unfold instrOfOpcode at h
  split at h
  case h_20 => cases h
  all_goals
    cases h
    exact BitVec.eq_of_toNat_eq (by simp [Instr.opcode, *])

theorem eq_wordOf_of_decode_loadKey {v : BusWord} (h : decode v = .ok .loadKey) : v = wordOf 0x20#8 0x00#8 := by
  have hop : fieldOpcode v = 0x20#8 := (opcode_of_instrOfOpcode ((decode_eq_ok_iff v _).1 h).1).symm
  by_contra hne
  exact (exists_decode_eq_ok_iff v).1 ⟨_, h⟩ (illegalWord_of_ne_wordOf (by decide) (by decide) hop hne)

/-! ### What keeps the schedules -/

/-- W, DW, KEYED, NK and NR are as before. -/
def SchedulesKept (s t : State) : Prop :=
  t.w = s.w ∧ t.dw = s.dw ∧ t.status.keyed = s.status.keyed ∧ t.status.nk = s.status.nk ∧ t.status.nr = s.status.nr

theorem SchedulesKept.refl (s : State) : SchedulesKept s s := ⟨rfl, rfl, rfl, rfl, rfl⟩

theorem setErr_schedulesKept (s : State) (e : ErrCode) : SchedulesKept s (s.setErr e) := ⟨rfl, rfl, rfl, rfl, rfl⟩

/-- Taking an event off and giving a response do not touch the schedules. -/
theorem SchedulesKept.of_setPending_respond {s t : State} {rest : List BusEvent}
    (h : SchedulesKept (s.setPending rest) t) (r : Response) : SchedulesKept s (t.respond r) := h

theorem exec_schedulesKept {i : Instr} (hi : i ≠ .loadKey) {s t : State} (h : exec i s = .next t) :
    SchedulesKept s t :=
  exec_rel i (setErr_schedulesKept s) (fun _ => ⟨rfl, rfl, rfl, rfl, rfl⟩) (fun _ => ⟨rfl, rfl, rfl, rfl, rfl⟩)
    (fun _ => ⟨rfl, rfl, rfl, rfl, rfl⟩) (fun hload => absurd hload hi) h

theorem execute_schedulesKept {v : BusWord} (hv : v ≠ wordOf 0x20#8 0x00#8) {s t : State}
    (h : execute v s = .next t) : SchedulesKept s t := by
  unfold execute at h
  split at h
  next i hdec =>
    exact exec_schedulesKept (by rintro rfl; exact hv (eq_wordOf_of_decode_loadKey hdec)) h
  next =>
    rw [illegalCommand_eq] at h
    exact next_inj h ▸ setErr_schedulesKept s _

theorem writeLanes_schedulesKept (s : State) (off : Nat) (v : BusWord) (n : Nat) :
    SchedulesKept s (writeLanes s off v n) := by
  have kept := writeLanes_kept s off v n
  exact ⟨kept.w, kept.dw, by rw [kept.status], by rw [kept.status], by rw [kept.status]⟩

/-- A write served keeps the schedules, or it is the CMD write of LOAD_KEY's word. -/
theorem serveWrite_schedulesKept_or_loadKey {s t : State} {rest : List BusEvent} {off : BitVec 12} {n : Nat}
    {v : BusWord} (h : serveWrite (s.setPending rest) off.toNat n v = .next t) :
    SchedulesKept s t ∨ IssuesCommand (.write off n v) (wordOf 0x20#8 0x00#8) := by
  rcases serveWrite_cases (s.setPending rest) off.toNat n v with
    ⟨r, -, hserve⟩ | ⟨-, hoff, rfl, u, hu, hserve⟩ | ⟨-, -, hserve⟩
  · exact .inl (next_inj (hserve.symm.trans h) ▸ (SchedulesKept.refl _).of_setPending_respond _)
  · by_cases hv : v = wordOf 0x20#8 0x00#8
    · have hcmd : off = 0x004#12 := BitVec.eq_of_toNat_eq hoff
      exact .inr (by rw [IssuesCommand, hv, hcmd])
    · exact .inl (next_inj (hserve.symm.trans h) ▸ (execute_schedulesKept hv hu).of_setPending_respond _)
  · exact .inl (next_inj (hserve.symm.trans h) ▸ (writeLanes_schedulesKept _ _ _ _).of_setPending_respond _)

/-- Settles O34: an idle step and a read change no register, a reset is named, and a write is the lemma above. -/
theorem onlyLoadKeyWritesSchedules : Obligations.OnlyLoadKeyWritesSchedules := by
  unfold Obligations.OnlyLoadKeyWritesSchedules
  intro s t h
  rcases step_cases h with ⟨-, rfl⟩ | ⟨off, n, rest, -, rfl⟩ | ⟨rest, hp, -⟩ | ⟨off, n, v, rest, hp, hserve⟩
  · exact .inl (SchedulesKept.refl t)
  · exact .inl ((SchedulesKept.refl _).of_setPending_respond _)
  · exact .inr ⟨_, rest, hp, .inl rfl⟩
  · exact (serveWrite_schedulesKept_or_loadKey hserve).imp id fun hload => ⟨_, rest, hp, .inr hload⟩

end Sys2Proof.Machine
end

section
/-! PROOFS. The words and round keys that LOAD_KEY leaves in W and DW (43_key_schedule R173 to R178). -/
namespace Sys2Proof.Machine

open Sys2Proof.Claims

/-! ### LOAD_KEY that succeeds (43_key_schedule R180) -/

theorem exists_keySize_of_mem {nk : Nat} (h : nk ∈ [4, 6, 8]) : ∃ ks : KeySize, ks.nk = nk := by
  simp only [List.mem_cons, List.not_mem_nil, or_false] at h
  rcases h with rfl | rfl | rfl
  · exact ⟨.aes128, rfl⟩
  · exact ⟨.aes192, rfl⟩
  · exact ⟨.aes256, rfl⟩

theorem exec_loadKey_of_keylen (ks : KeySize) {s : State} (hbo : s.ctrl.bo = false)
    (hlen : s.ctrl.keylen.toNat = 4 * ks.nk) :
    exec .loadKey s = .next ((s.installKey ks (s.keyPrefix (4 * ks.nk) ks.bytes_le)).setErr .ok) := by
  rw [exec_loadKey, execLoadKey, command_of_le hbo, keySizeOfKeylen_of_toNat ks hlen]
  rfl

@[simp] theorem State.installKey_w (s : State) (ks : KeySize) (k : Bytes (4 * ks.nk)) :
    (s.installKey ks k).w = forwardSchedule ks k := rfl

@[simp] theorem State.installKey_dw (s : State) (ks : KeySize) (k : Bytes (4 * ks.nk)) :
    (s.installKey ks k).dw = eqInvSchedule ks k := rfl

/-! ### The expansion as a recurrence (43_key_schedule R173) -/

/-- Word `i` of `KeyExpansion(K)`. -/
def expandedWord (ks : KeySize) (k : Bytes (4 * ks.nk)) (i : Nat) : Word := (keyExpansion ks k).getD i zeroWord

theorem expandedWord_of_lt_nk (ks : KeySize) (k : Bytes (4 * ks.nk)) (i : Nat) (h : i < ks.nk) :
    expandedWord ks k i = #v[k[4 * i], k[4 * i + 1], k[4 * i + 2], k[4 * i + 3]] := by
  rw [expandedWord, keyExpansion, expandWords_getD _ _ _ _ (by simpa using h)]
  simp [keyWords, List.getD, h]

theorem getD_take_of_lt {α : Type} (l : List α) (i j : Nat) (d : α) (h : j < i) : (l.take i).getD j d = l.getD j d := by
  simp [h]

theorem expandedWord_of_nk_le (ks : KeySize) (k : Bytes (4 * ks.nk)) (i : Nat) (hnk : ks.nk ≤ i)
    (hi : i < 4 * (ks.nr + 1)) :
    expandedWord ks k i =
      xorBytes (expandedWord ks k (i - ks.nk)) (keyTemp ks.nk i (expandedWord ks k (i - 1))) := by
  have hpos := ks.nk_pos
  have hword : expandedWord ks k i = nextWord ks.nk ((keyExpansion ks k).take i) :=
    expandWords_take _ _ _ _ (by simpa using hnk) (by simp; omega) _
  have hlen : ((keyExpansion ks k).take i).length = i := by simp; omega
  rw [hword, nextWord, hlen, getD_take_of_lt _ _ _ _ (by omega), getD_take_of_lt _ _ _ _ (by omega)]
  rfl

/-! ### The word XORed in (43_key_schedule R170 to R172) -/

/-- The list of Rcon's bytes is the powers of 0x02, as far as a schedule reads it. -/
theorem rcBytes_getD_eq_rc : ∀ j ≤ 10, rcBytes.getD j 0x00 = rc j := by decide

theorem rcon_eq_of_le_ten {j : Nat} (h : j ≤ 10) : rcon j = #v[rc j, 0x00#8, 0x00#8, 0x00#8] := by
  rw [rcon, rcBytes_getD_eq_rc j h]
  rfl

/-- "No schedule reads an index past 10" (43_key_schedule R172). -/
theorem KeySize.div_nk_le (ks : KeySize) (i : Nat) (h : i < 4 * (ks.nr + 1)) : i / ks.nk ≤ 10 := by
  cases ks <;> simp only [KeySize.nk, KeySize.nr] at * <;> omega

theorem KeySize.six_lt_nk_iff (ks : KeySize) : 6 < ks.nk ↔ ks.nk = 8 := by cases ks <;> decide

theorem subWord_eq (t : Word) : subWord t = #v[sbox t[0], sbox t[1], sbox t[2], sbox t[3]] := by
  ext j hj
  rw [subWord, mapBytes_getElem]
  interval_cases j <;> rfl

theorem xorBytes_subWord_rotWord_rcon (t : Word) {j : Nat} (h : j ≤ 10) :
    xorBytes (subWord (rotWord t)) (rcon j) = #v[sbox t[1] ^^^ rc j, sbox t[2], sbox t[3], sbox t[0]] := by
  rw [rcon_eq_of_le_ten h, subWord_eq]
  ext k hk
  rw [xorBytes_getElem]
  interval_cases k <;> simp [rotWord]

theorem keyTemp_eq_tempWord (ks : KeySize) (i : Nat) (h : i < 4 * (ks.nr + 1)) (t : Word) :
    keyTemp ks.nk i t = tempWord ks.nk i t := by
  rw [keyTemp, tempWord, xorBytes_subWord_rotWord_rcon t (ks.div_nk_le i h), subWord_eq]
  simp only [gt_iff_lt, ks.six_lt_nk_iff]

/-! ### The words of W -/

/-- Word `i` of a memory is column `i % 4` of round key `i / 4` (43_key_schedule R174). -/
theorem scheduleWord_getElem (m : Memory) (i j : Nat) (h : j < 4) :
    (scheduleWord m i)[j] = (roundKeyOf m (i / 4))[4 * (i % 4) + j] := by
  have hindex : 16 * (i / 4) + (4 * (i % 4) + j) = 4 * i + j := by omega
  rw [roundKeyOf_getElem, hindex]
  interval_cases j <;> rfl

theorem scheduleWord_forwardSchedule (ks : KeySize) (k : Bytes (4 * ks.nk)) (i : Nat) (h : i < 4 * (ks.nr + 1)) :
    scheduleWord (forwardSchedule ks k) i = expandedWord ks k i := by
  ext j hj
  have hword : 4 * (i / 4) + (4 * (i % 4) + j) / 4 = i := by omega
  have hbyte : (4 * (i % 4) + j) % 4 = j := by omega
  rw [scheduleWord_getElem _ _ _ hj, roundKeyOf_forwardSchedule ks k _ (by omega)]
  simp [roundKeyOfWords, expandedWord, hword, hbyte]

/-- Settles O31: the words of W are those of the expansion, whose recurrence uses the same temp. -/
theorem loadKeyExpandsKey : Obligations.LoadKeyExpandsKey := by
  unfold Obligations.LoadKeyExpandsKey
  rintro s nk ⟨hbo, hmem, hlen⟩
  obtain ⟨ks, rfl⟩ := exists_keySize_of_mem hmem
  refine ⟨_, exec_loadKey_of_keylen ks hbo hlen, fun i hi _ => ?key, fun i hnk hi j hj => ?expanded⟩
  case key =>
    have hle := ks.nk_le
    rw [State.setErr_w, State.installKey_w, scheduleWord_forwardSchedule _ _ _ (by omega),
      expandedWord_of_lt_nk _ _ _ hi]
    simp only [keyPrefix_getElem]
  case expanded =>
    have hi' : i < 4 * (ks.nr + 1) := hi
    have hpos := ks.nk_pos
    rw [State.setErr_w, State.installKey_w, scheduleWord_forwardSchedule _ _ _ hi',
      scheduleWord_forwardSchedule _ _ (i - ks.nk) (by omega), scheduleWord_forwardSchedule _ _ (i - 1) (by omega),
      ← xorBytes_getElem, ← keyTemp_eq_tempWord ks i hi', ← expandedWord_of_nk_le _ _ _ hnk hi']

/-! ### The round keys of DW (43_key_schedule R175, R178) -/

theorem roundKeyOf_eqInvSchedule_of_end (ks : KeySize) (k : Bytes (4 * ks.nk)) (r : Nat) (h : r = 0 ∨ r = ks.nr) :
    roundKeyOf (eqInvSchedule ks k) r = roundKeyOf (forwardSchedule ks k) r := by
  have hr : r ≤ ks.nr := by omega
  rw [roundKeyOf_eqInvSchedule ks k r hr, roundKeyOf_forwardSchedule ks k r hr, eqInvRoundKey, if_pos h]

theorem roundKeyOf_eqInvSchedule_of_middle (ks : KeySize) (k : Bytes (4 * ks.nk)) (r : Nat) (h0 : 1 ≤ r)
    (h : r < ks.nr) :
    roundKeyOf (eqInvSchedule ks k) r = invMixColumns (roundKeyOf (forwardSchedule ks k) r) := by
  rw [roundKeyOf_eqInvSchedule ks k r h.le, roundKeyOf_forwardSchedule ks k r h.le, eqInvRoundKey,
    if_neg (by omega)]

/-- Settles O32: DW holds the end round keys of W unchanged and InvMixColumns of the others. -/
theorem loadKeySchedulesConsistent : Obligations.LoadKeySchedulesConsistent := by
  unfold Obligations.LoadKeySchedulesConsistent
  rintro s nk ⟨hbo, hmem, hlen⟩
  obtain ⟨ks, rfl⟩ := exists_keySize_of_mem hmem
  exact ⟨_, exec_loadKey_of_keylen ks hbo hlen, roundKeyOf_eqInvSchedule_of_end ks _ 0 (.inl rfl),
    roundKeyOf_eqInvSchedule_of_end ks _ _ (.inr rfl),
    fun r h0 h => roundKeyOf_eqInvSchedule_of_middle ks _ r h0 (Nat.lt_succ_of_le h)⟩

end Sys2Proof.Machine
end

section
/-! PROOFS. The code a command word reports, by the decoder's answer (60_exceptions R233 to R236, R238). -/
namespace Sys2Proof.Machine

open Sys2Proof.Claims

/-! ### The code of a command that passed the decoder -/

/-- The code a decoded command reports with BO = 0: NO_KEY before OPERAND in the commands that need a schedule, and
CONFIG in LOAD_KEY (60_exceptions R234 to R236, R238). -/
def errorCode (s : State) : Instr → ErrCode
  | .addRkFwd round | .addRkEqi round =>
    if s.status.keyed = false then .noKey else if s.status.nr.toNat < round then .operand else .ok
  | .cipher | .invCipher | .eqInvCipher => if s.status.keyed = false then .noKey else .ok
  | .loadKey => if s.ctrl.keylen.toNat ∉ [16, 24, 32] then .config else .ok
  | _ => .ok

theorem errorCode_loadKey (s : State) :
    errorCode s .loadKey = if s.ctrl.keylen.toNat ∉ [16, 24, 32] then .config else .ok := rfl

/-- CONFIG is raised only by LOAD_KEY, and only for a KEYLEN that is none of the three (60_exceptions R234). -/
theorem errorCode_eq_config_iff {s : State} {i : Instr} :
    errorCode s i = .config ↔ i = .loadKey ∧ s.ctrl.keylen.toNat ∉ [16, 24, 32] := by
  cases i with
  | loadKey => simp [errorCode_loadKey]
  | addRkFwd | addRkEqi | cipher | invCipher | eqInvCipher =>
    simp only [errorCode, reduceCtorEq, false_and, iff_false]
    split_ifs <;> simp
  | _ => simp [errorCode]

theorem keySizeOfKeylen_eq_none_iff {l : Byte} : keySizeOfKeylen l = none ↔ l.toNat ∉ [16, 24, 32] := by
  refine ⟨fun h hmem => ?_, fun h => ?_⟩
  · unfold keySizeOfKeylen at h
    split at h <;> simp_all
  · simp only [List.mem_cons, List.not_mem_nil, or_false, not_or] at h
    obtain ⟨h16, h24, h32⟩ := h
    exact keySizeOfKeylen_eq_none h16 h24 h32

/-! ### `reportedCode` by the decoder's answer -/

theorem reportedCode_of_bo (v : BusWord) {s : State} (hbo : s.ctrl.bo = true) : reportedCode v s = .platform := by
  simp [reportedCode, hbo]

theorem not_mem_assignedOpcodes {op : Nat} (h : UnassignedOpcode op) : op ∉ assignedOpcodes := by
  simp only [assignedOpcodes, List.mem_cons, List.not_mem_nil, or_false]
  omega

theorem reportedCode_of_illegalWord {v : BusWord} {s : State} (hv : IllegalWord v) (hbo : s.ctrl.bo = false) :
    reportedCode v s = .illegal := by
  rcases hv with hop | hrsv | ⟨hround, hfwd, heqi⟩
  · simp [reportedCode, hbo, not_mem_assignedOpcodes hop]
  · simp [reportedCode, hbo, hrsv]
  · simp [reportedCode, hbo, hround, hfwd, heqi]

theorem roundField_of_instrOfOpcode {op : Byte} {round : Nat} {i : Instr} (h : instrOfOpcode op round = some i) :
    i.roundField = if i.usesRound then round else 0 := by
  unfold instrOfOpcode at h
  split at h <;> cases h <;> rfl

/-- Where a decoded word holds the fields of its instruction (30_encoding R91). -/
theorem fields_of_decode {v : BusWord} {i : Instr} (h : decode v = .ok i) :
    v.toNat % 256 = i.opcode.toNat ∧ v.toNat / 256 % 256 = i.roundField ∧ v.toNat / 65536 = 0 := by
  obtain ⟨hmap, hrsv, hround⟩ := (decode_eq_ok_iff v i).1 h
  refine ⟨?_, ?_, (fieldRsv_eq_zero_iff v).1 hrsv⟩
  · rw [opcode_of_instrOfOpcode hmap, fieldOpcode_toNat]
  · rw [roundField_of_instrOfOpcode hmap, ← fieldRound_toNat]
    cases huses : i.usesRound with
    | true => rfl
    | false => simp [hround huses]

theorem reportedCode_of_decode {v : BusWord} {i : Instr} {s : State} (h : decode v = .ok i) (hbo : s.ctrl.bo = false) :
    reportedCode v s = errorCode s i := by
  obtain ⟨hop, hround, hrsv⟩ := fields_of_decode h
  rw [reportedCode, hop, hround, hrsv, hbo]
  cases i <;> simp [errorCode, assignedOpcodes, Instr.opcode, Instr.roundField]

/-- PLATFORM is raised while BO = 1 and never else (60_exceptions R233). -/
theorem reportedCode_eq_platform_iff {v : BusWord} {s : State} : reportedCode v s = .platform ↔ s.ctrl.bo = true := by
  refine ⟨fun h => ?_, reportedCode_of_bo v⟩
  by_contra hbo
  revert h
  simp only [reportedCode, if_neg hbo]
  split_ifs <;> simp

theorem exists_decode_of_reportedCode_eq_config {v : BusWord} {s : State} (h : reportedCode v s = .config) :
    ∃ i, decode v = .ok i ∧ errorCode s i = .config := by
  have hbo : s.ctrl.bo = false := by
    rw [← Bool.not_eq_true, ← reportedCode_eq_platform_iff (v := v), h]
    simp
  have hv : ¬ IllegalWord v := fun hv => by simp [reportedCode_of_illegalWord hv hbo] at h
  obtain ⟨i, hdec⟩ := (exists_decode_eq_ok_iff v).2 hv
  exact ⟨i, hdec, (reportedCode_of_decode hdec hbo).symm.trans h⟩

end Sys2Proof.Machine
end

section
/-! PROOFS. The one ending of each error code, met by every command word (60_exceptions R231 to R234). -/
namespace Sys2Proof.Machine

open Sys2Proof.Claims

/-! ### What a code says of the state left -/

/-- The state `t` a command leaves that reports a code, `s` being the state before it: ERR set and nothing else, the
schedules discarded too with CONFIG, and with OK whatever the command computes (60_exceptions R231). -/
def EndsWith (s t : State) : ErrCode → Prop
  | .ok => t.status.err = .ok
  | .config => t = s.discardKey.setErr .config
  | e => t = s.setErr e

theorem EndsWith.err {s t : State} {e : ErrCode} (h : EndsWith s t e) : t.status.err = e := by
  cases e with
  | ok => exact h
  | config | platform | noKey | illegal | operand => cases h; rfl

theorem EndsWith.eq_setErr {s t : State} {e : ErrCode} (h : EndsWith s t e) (hok : e ≠ .ok) (hconfig : e ≠ .config) :
    t = s.setErr e := by
  cases e with
  | ok => exact absurd rfl hok
  | config => exact absurd rfl hconfig
  | platform | noKey | illegal | operand => exact h

/-- For a command whose answer is known to be a state with ERR = OK: nothing more is asked of it. -/
theorem EndsWith.of_exec_eq {i : Instr} {s t u : State} (hi : exec i s = .next (u.setErr .ok)) (h : exec i s = .next t) :
    EndsWith s t .ok :=
  next_inj (hi.symm.trans h) ▸ rfl

/-! ### Every command -/

theorem keyedCommand_endsWith {f : State → State} {s t : State} (hbo : s.ctrl.bo = false)
    (h : keyedCommand (fun s => done (f s)) s = .next t) :
    EndsWith s t (if s.status.keyed = false then .noKey else .ok) := by
  rcases keyedCommand_cases h with ⟨hb, -⟩ | ⟨-, hk, rfl⟩ | ⟨-, hk, h⟩
  · simp [hbo] at hb
  · rw [if_pos hk]; rfl
  · rw [if_neg (by simp [hk])]; exact next_inj h ▸ rfl

theorem roundCommand_endsWith {round : Nat} {f : State → State} {s t : State} (hbo : s.ctrl.bo = false)
    (h : roundCommand round (fun s => done (f s)) s = .next t) :
    EndsWith s t (if s.status.keyed = false then .noKey else if s.status.nr.toNat < round then .operand else .ok) := by
  rcases roundCommand_cases h with ⟨hb, -⟩ | ⟨-, hk, rfl⟩ | ⟨-, hk, hr, rfl⟩ | ⟨-, hk, hr, h⟩
  · simp [hbo] at hb
  · rw [if_pos hk]; rfl
  · rw [if_neg (by simp [hk]), if_pos hr]; rfl
  · rw [if_neg (by simp [hk]), if_neg (by omega)]; exact next_inj h ▸ rfl

/-- A decoded command with BO = 0 ends with its own code. -/
theorem exec_endsWith {i : Instr} {s t : State} (hbo : s.ctrl.bo = false) (h : exec i s = .next t) :
    EndsWith s t (errorCode s i) := by
  cases i with
  | nop => exact .of_exec_eq (exec_nop_of_le hbo) h
  | gfAdd => exact .of_exec_eq (exec_gfAdd_of_le hbo) h
  | gfXtime => exact .of_exec_eq (exec_gfXtime_of_le hbo) h
  | gfMul => exact .of_exec_eq (exec_gfMul_of_le hbo) h
  | sbox => exact .of_exec_eq (exec_sbox_of_le hbo) h
  | invSbox => exact .of_exec_eq (exec_invSbox_of_le hbo) h
  | subBytes => exact .of_exec_eq (exec_subBytes_of_le hbo) h
  | invSubBytes => exact .of_exec_eq (exec_invSubBytes_of_le hbo) h
  | shiftRows => exact .of_exec_eq (exec_shiftRows_of_le hbo) h
  | invShiftRows => exact .of_exec_eq (exec_invShiftRows_of_le hbo) h
  | mixColumns => exact .of_exec_eq (exec_mixColumns_of_le hbo) h
  | invMixColumns => exact .of_exec_eq (exec_invMixColumns_of_le hbo) h
  | addRk => exact .of_exec_eq (exec_addRk_of_le hbo) h
  | addRkFwd round =>
    rw [exec_addRkFwd, execAddRkFwd] at h
    exact roundCommand_endsWith hbo h
  | addRkEqi round =>
    rw [exec_addRkEqi, execAddRkEqi] at h
    exact roundCommand_endsWith hbo h
  | loadKey =>
    rcases execLoadKey_cases h with ⟨hb, -⟩ | ⟨-, hlen, rfl⟩ | ⟨ks, -, hlen, rfl⟩
    · simp [hbo] at hb
    · rw [errorCode_loadKey, if_pos (keySizeOfKeylen_eq_none_iff.1 hlen)]; rfl
    · rw [errorCode_loadKey, if_neg (keySizeOfKeylen_eq_none_iff.not.1 (by simp [hlen]))]; rfl
  | cipher =>
    rw [exec_cipher, execCipher] at h
    exact keyedCommand_endsWith hbo h
  | invCipher =>
    rw [exec_invCipher, execInvCipher] at h
    exact keyedCommand_endsWith hbo h
  | eqInvCipher =>
    rw [exec_eqInvCipher, execEqInvCipher] at h
    exact keyedCommand_endsWith hbo h

/-! ### Every command word -/

theorem execute_of_decode {v : BusWord} {i : Instr} (h : decode v = .ok i) (s : State) : execute v s = exec i s := by
  simp only [execute, h]

/-- PLATFORM is raised before any other check, the decoder's included (60_exceptions R233). -/
theorem execute_of_bo (v : BusWord) {s : State} (hbo : s.ctrl.bo = true) :
    execute v s = .next (s.setErr .platform) := by
  by_cases hv : IllegalWord v
  · rw [execute_of_illegalWord hv, hbo]; rfl
  · obtain ⟨i, hdec⟩ := (exists_decode_eq_ok_iff v).2 hv
    rw [execute_of_decode hdec, exec_of_bo i hbo]

/-- Every command word ends with the code that R238's order gives. -/
theorem execute_endsWith {v : BusWord} {s t : State} (h : execute v s = .next t) :
    EndsWith s t (reportedCode v s) := by
  cases hbo : s.ctrl.bo with
  | true =>
    rw [execute_of_bo v hbo] at h
    rw [reportedCode_of_bo v hbo]
    exact (next_inj h).symm
  | false =>
    by_cases hv : IllegalWord v
    · rw [execute_of_illegalWord hv, hbo] at h
      rw [reportedCode_of_illegalWord hv hbo]
      exact (next_inj h).symm
    · obtain ⟨i, hdec⟩ := (exists_decode_eq_ok_iff v).2 hv
      rw [execute_of_decode hdec] at h
      rw [reportedCode_of_decode hdec hbo]
      exact exec_endsWith hbo h

/-! ### The obligations -/

theorem Memory.read_cleared (j : Nat) : Memory.read Memory.cleared j = 0x00#8 := Memory.read_nil j

/-- Settles O14: the ending of the code reported, for every code but OK. -/
theorem failedCommandKeepsState : Obligations.FailedCommandKeepsState := by
  unfold Obligations.FailedCommandKeepsState
  refine ⟨fun v s hok hconfig => ?_, fun v s hcode => ?_⟩
  · obtain ⟨t, ht⟩ := execute_answers v s
    rw [ht, (execute_endsWith ht).eq_setErr hok hconfig]
    rfl
  · obtain ⟨t, ht⟩ := execute_answers v s
    have hend := execute_endsWith ht
    rw [hcode] at hend
    cases hend
    exact ⟨_, ht, rfl, fun j => ⟨Memory.read_cleared j, Memory.read_cleared j⟩⟩

/-- Settles O15: with BO = 1 PLATFORM comes first, and with BO = 0 the code reported is another. -/
theorem platformErrorExactlyWhileBo : Obligations.PlatformErrorExactlyWhileBo := by
  unfold Obligations.PlatformErrorExactlyWhileBo
  refine ⟨fun v s hbo => execute_of_bo v hbo, fun v s hbo => ?_⟩
  obtain ⟨t, ht⟩ := execute_answers v s
  refine ⟨t, ht, ?_⟩
  rw [(execute_endsWith ht).err, Ne, reportedCode_eq_platform_iff, hbo]
  exact Bool.false_ne_true

/-- Settles O16: LOAD_KEY ends with CONFIG for a KEYLEN it does not support, and a word that reports CONFIG is legal and
runs with BO = 0, so that it decodes to the one command whose own code can be CONFIG. -/
theorem configErrorOnlyFromLoadKey : Obligations.ConfigErrorOnlyFromLoadKey := by
  unfold Obligations.ConfigErrorOnlyFromLoadKey
  refine ⟨fun s hbo hlen => ?_, fun v s t h herr => ?_⟩
  · obtain ⟨t, ht⟩ := exec_answers .loadKey s
    have hend := exec_endsWith hbo ht
    rw [errorCode_eq_config_iff.2 ⟨rfl, hlen⟩] at hend
    cases hend
    exact ⟨_, ht, rfl, fun j => ⟨Memory.read_cleared j, Memory.read_cleared j⟩⟩
  · rw [(execute_endsWith h).err] at herr
    obtain ⟨i, hdec, hconfig⟩ := exists_decode_of_reportedCode_eq_config herr
    obtain ⟨rfl, hlen⟩ := errorCode_eq_config_iff.1 hconfig
    exact ⟨hdec, hlen⟩

end Sys2Proof.Machine
end

section
/-! PROOFS. The encoder and the decoder undo each other, and the legal words counted (30_encoding R90 to R96). -/
namespace Sys2Proof.Machine

open Sys2Proof.Claims
open Sys2Proof.Laws

/-! ### A word is its three fields -/

theorem busWord_eq_of_fields {u v : BusWord} (hop : fieldOpcode u = fieldOpcode v)
    (hround : fieldRound u = fieldRound v) (hrsv : fieldRsv u = fieldRsv v) : u = v := by
  rw [BitVec.toNat_eq] at hop hround hrsv ⊢
  rw [fieldOpcode_toNat, fieldOpcode_toNat] at hop
  rw [fieldRound_toNat, fieldRound_toNat] at hround
  rw [fieldRsv_toNat, fieldRsv_toNat] at hrsv
  omega

/-- The word of R96 laid out as format C, so that the laws of its fields apply. -/
theorem wordOf_eq_append (op rnd : Byte) : wordOf op rnd = 0#16 ++ rnd ++ op := by
  refine BitVec.eq_of_getLsbD_eq fun k hk => ?_
  simp only [wordOf, BitVec.getLsbD_or, BitVec.getLsbD_setWidth, BitVec.getLsbD_shiftLeft, BitVec.getLsbD_append]
  by_cases hop : k < 8
  · simp [hop, hk]
  · rw [BitVec.getLsbD_of_ge op k (by omega), if_neg hop]
    by_cases hround : k - 8 < 8
    · simp [hop, hround, hk]; omega
    · rw [BitVec.getLsbD_of_ge rnd (k - 8) (by omega)]
      simp [hround]

/-- The opcode and the round of a word of format C as numbers. -/
theorem wordOf_toNat (op rnd : Byte) :
    (wordOf op rnd).toNat % 256 = op.toNat ∧ (wordOf op rnd).toNat / 256 % 256 = rnd.toNat ∧
      (wordOf op rnd).toNat / 65536 = 0 := by
  obtain ⟨hop, hround, hrsv⟩ := EncodingFields.fields_of_parts op rnd
  rw [← wordOf_eq_append] at hop hround hrsv
  exact ⟨by rw [← fieldOpcode_toNat, hop], by rw [← fieldRound_toNat, hround], (fieldRsv_eq_zero_iff _).1 hrsv⟩

/-! ### Decode of encode (30_encoding R91, R96) -/

theorem instrOfOpcode_opcode (i : Instr) : instrOfOpcode i.opcode i.roundField = some i := by
  cases i <;> rfl

theorem roundField_of_usesRound_eq_false {i : Instr} (h : i.usesRound = false) : i.roundField = 0 := by
  cases i with
  | addRkFwd | addRkEqi => cases h
  | _ => rfl

theorem decode_encode {i : Instr} (h : i.wellFormed = true) : decode (encode i) = .ok i := by
  obtain ⟨hop, hround, hrsv⟩ := EncodingFields.of_parts i h
  refine (decode_eq_ok_iff _ i).2 ⟨?_, hrsv, fun huses => BitVec.eq_of_toNat_eq ?_⟩
  · rw [hop, hround, instrOfOpcode_opcode]
  · rw [hround, roundField_of_usesRound_eq_false huses]; rfl

/-- A word put together from its own lanes is the word (20_memory R64). -/
theorem wordOfLanes_lanes (v : BusWord) :
    wordOfLanes (v.extractLsb' 0 8) (v.extractLsb' 8 8) (v.extractLsb' 16 8) (v.extractLsb' 24 8) = v := by
  refine BitVec.eq_of_getLsbD_eq fun k hk => ?_
  simp only [wordOfLanes, BitVec.getLsbD_append, BitVec.getLsbD_extractLsb']
  split_ifs with h0 h1 h2
  · simp [h0]
  · simp [h1, show 8 + (k - 8) = k by omega]
  · simp [h2, show 16 + (k - 8 - 8) = k by omega]
  · simp [show k - 8 - 8 - 8 < 8 by omega, show 24 + (k - 8 - 8 - 8) = k by omega]

theorem decodeBytes_lanesOfWord (v : BusWord) : decodeBytes (lanesOfWord v) = decode v := by
  simp only [lanesOfWord, decodeBytes, wordOfLanes_lanes]

theorem tableWord_toNat (v : BusWord) : tableWord 32 v.toNat = v := by
  simp [tableWord, Nat.mod_eq_of_lt v.isLt]

theorem decodeTableWord_toNat {v : BusWord} {i : Instr} (h : decode v = .ok i) :
    decodeTableWord 32 v.toNat = some i := by
  simp only [decodeTableWord, tableWord_toNat, decodeBytes_lanesOfWord, h]

/-- Settles O9: the fields of the encoded word are the instruction's, and the opcode map reads them back. -/
theorem decodeReadsBackEncode : Obligations.DecodeReadsBackEncode := by
  unfold Obligations.DecodeReadsBackEncode
  exact fun i h => ⟨decode_encode h, decodeTableWord_toNat (decode_encode h)⟩

/-! ### Encode of decode (30_encoding R96) -/

theorem wellFormed_of_decode {v : BusWord} {i : Instr} (h : decode v = .ok i) : i.wellFormed = true := by
  obtain ⟨-, hround, -⟩ := fields_of_decode h
  rw [Instr.wellFormed, ← hround, decide_eq_true_eq]
  exact Nat.mod_lt _ (by decide)

theorem encode_of_decode {v : BusWord} {i : Instr} (h : decode v = .ok i) : encode i = v := by
  obtain ⟨hop, hround, hrsv⟩ := fields_of_decode h
  obtain ⟨eop, eround, ersv⟩ := EncodingFields.of_parts i (wellFormed_of_decode h)
  refine busWord_eq_of_fields (BitVec.eq_of_toNat_eq ?_) (BitVec.eq_of_toNat_eq ?_) ?_
  · rw [eop, fieldOpcode_toNat, hop]
  · rw [eround, fieldRound_toNat, hround]
  · rw [ersv, (fieldRsv_eq_zero_iff v).2 hrsv]; rfl

/-- Settles O10: the instruction's fields are the word's, so that encoding it gives the word back. -/
theorem legalWordsAreEncodings : Obligations.LegalWordsAreEncodings := by
  unfold Obligations.LegalWordsAreEncodings
  exact fun v i h => ⟨wellFormed_of_decode h, encode_of_decode h⟩

/-! ### The legal words -/

theorem eq_wordOf_of_rsv_eq_zero {v : BusWord} {op : Byte} (hrsv : v.toNat / 65536 = 0)
    (hop : v.toNat % 256 = op.toNat) : v = wordOf op (fieldRound v) := by
  obtain ⟨wop, wround, wrsv⟩ := wordOf_toNat op (fieldRound v)
  rw [fieldRound_toNat] at wround
  exact BitVec.eq_of_toNat_eq (by omega)

/-- Settles O11: what is not on the list of illegal words has its RSV zero, and its ROUND zero too unless the opcode
is 0x17 or 0x18. -/
theorem legalWordsCounted : Obligations.LegalWordsCounted := by
  unfold Obligations.LegalWordsCounted
  intro v
  rw [exists_decode_eq_ok_iff]
  refine ⟨fun hlegal => ?_, ?_⟩
  · have hrsv : v.toNat / 65536 = 0 := by unfold IllegalWord at hlegal; omega
    by_cases hfwd : v.toNat % 256 = 0x17
    · exact .inr ⟨_, .inl (eq_wordOf_of_rsv_eq_zero hrsv hfwd)⟩
    by_cases heqi : v.toNat % 256 = 0x18
    · exact .inr ⟨_, .inr (eq_wordOf_of_rsv_eq_zero hrsv heqi)⟩
    · simp only [assignedOpcodes, List.mem_cons, List.not_mem_nil, or_false]
      unfold IllegalWord at hlegal
      omega
  · rintro (hmem | ⟨rnd, rfl | rfl⟩)
    · simp only [assignedOpcodes, List.mem_cons, List.not_mem_nil, or_false] at hmem
      unfold IllegalWord
      omega
    · obtain ⟨wop, -, wrsv⟩ := wordOf_toNat 0x17#8 rnd
      simp [IllegalWord, wop, wrsv]
    · obtain ⟨wop, -, wrsv⟩ := wordOf_toNat 0x18#8 rnd
      simp [IllegalWord, wop, wrsv]

/-- Settles O8: each word of the table is decoded by evaluation. -/
theorem wordsOfTheTableDecode : Obligations.WordsOfTheTableDecode := by
  unfold Obligations.WordsOfTheTableDecode
  decide

end Sys2Proof.Machine
end

section
/-! PROOFS. What a command writes and what it leaves, said once for each class of commands (30_encoding R92). -/
namespace Sys2Proof.Machine

open Sys2Proof.Claims

/-! ### The registers a command may write -/

/-- Before its ERR is set, `u` is `s` with at most the registers written that the command `i` writes. -/
def Instr.Writes (i : Instr) (s u : State) : Prop :=
  match i with
  | .nop => u = s
  | .gfAdd | .gfXtime | .gfMul | .sbox | .invSbox => ∃ r, u = s.setR r
  | .subBytes | .invSubBytes | .shiftRows | .invShiftRows | .mixColumns | .invMixColumns | .addRk =>
    ∃ x, u = s.setState x
  | .addRkFwd _ | .addRkEqi _ => ∃ x, u = s.setState x
  | .loadKey => ∃ keyed nk nr w dw, u = s.setSchedules keyed nk nr w dw
  | .cipher | .invCipher | .eqInvCipher => ∃ run, u = s.takeRun run

/-- A command fails and sets ERR alone, or writes its own registers and ERR; ERR is then OK, but for LOAD_KEY's CONFIG. -/
def Instr.Leaves (i : Instr) (s t : State) : Prop :=
  (∃ e, t = s.setErr e) ∨ ∃ u e, Instr.Writes i s u ∧ t = u.setErr e ∧ (i ≠ .loadKey → e = .ok)

theorem Instr.Leaves.of_setErr (i : Instr) (s : State) (e : ErrCode) : Instr.Leaves i s (s.setErr e) := .inl ⟨e, rfl⟩

theorem Instr.Leaves.of_done {i : Instr} {s t u : State} (hu : Instr.Writes i s u) (h : done u = .next t) :
    Instr.Leaves i s t :=
  .inr ⟨u, .ok, hu, (next_inj h).symm, fun _ => rfl⟩

section Checks

variable {i : Instr} {f : State → State} {s t : State}

theorem Instr.Leaves.of_command (h : command (fun s => done (f s)) s = .next t) (hf : Instr.Writes i s (f s)) :
    Instr.Leaves i s t :=
  command_rel (body := fun s => done (f s)) (.of_setErr i s) (fun _ => .of_done hf) h

theorem Instr.Leaves.of_keyedCommand (h : keyedCommand (fun s => done (f s)) s = .next t)
    (hf : Instr.Writes i s (f s)) : Instr.Leaves i s t :=
  keyedCommand_rel (body := fun s => done (f s)) (.of_setErr i s) (fun _ => .of_done hf) h

theorem Instr.Leaves.of_roundCommand {round : Nat} (h : roundCommand round (fun s => done (f s)) s = .next t)
    (hf : Instr.Writes i s (f s)) : Instr.Leaves i s t :=
  roundCommand_rel (body := fun s => done (f s)) (.of_setErr i s) (fun _ => .of_done hf) h

end Checks

/-- Every command, by the checks it makes and the register its body writes. -/
theorem exec_leaves {i : Instr} {s t : State} (h : exec i s = .next t) : Instr.Leaves i s t := by
  cases i with
  | nop =>
    rw [exec_nop, execNop] at h
    exact .of_command (f := fun s => s) h rfl
  | gfAdd | gfXtime | gfMul | sbox | invSbox =>
    simp only [exec_gfAdd, execGfAdd, exec_gfXtime, execGfXtime, exec_gfMul, execGfMul, exec_sbox, execSbox,
      exec_invSbox, execInvSbox] at h
    exact .of_command h ⟨_, rfl⟩
  | subBytes | invSubBytes | shiftRows | invShiftRows | mixColumns | invMixColumns | addRk =>
    simp only [exec_subBytes, execSubBytes, exec_invSubBytes, execInvSubBytes, exec_shiftRows, execShiftRows,
      exec_invShiftRows, execInvShiftRows, exec_mixColumns, execMixColumns, exec_invMixColumns, execInvMixColumns,
      exec_addRk, execAddRk] at h
    exact .of_command h ⟨_, rfl⟩
  | addRkFwd | addRkEqi =>
    simp only [exec_addRkFwd, execAddRkFwd, exec_addRkEqi, execAddRkEqi] at h
    exact .of_roundCommand h ⟨_, rfl⟩
  | cipher | invCipher | eqInvCipher =>
    simp only [exec_cipher, execCipher, exec_invCipher, execInvCipher, exec_eqInvCipher, execEqInvCipher] at h
    exact .of_keyedCommand h ⟨_, rfl⟩
  | loadKey =>
    rcases execLoadKey_cases h with ⟨-, rfl⟩ | ⟨-, -, rfl⟩ | ⟨ks, -, -, rfl⟩
    · exact .of_setErr _ s _
    · exact .inr ⟨_, _, ⟨_, _, _, _, _, rfl⟩, rfl, fun hne => absurd rfl hne⟩
    · exact .inr ⟨_, _, ⟨_, _, _, _, _, rfl⟩, rfl, fun _ => rfl⟩

/-! ### What no command writes -/

/-- CTRL, GFOP, RKIN, KEY and the two lists of the outside: the host's own (10_state R32, R41, R44, R45). -/
structure CommandKept (s t : State) : Prop where
  ctrl : t.ctrl = s.ctrl
  gfop : t.gfop = s.gfop
  rkin : t.rkin = s.rkin
  key : t.key = s.key
  pending : t.pending = s.pending
  responses : t.responses = s.responses

theorem setErr_commandKept (s : State) (e : ErrCode) : CommandKept s (s.setErr e) := ⟨rfl, rfl, rfl, rfl, rfl, rfl⟩

theorem exec_commandKept {i : Instr} {s t : State} (h : exec i s = .next t) : CommandKept s t :=
  exec_rel i (setErr_commandKept s) (fun _ => ⟨rfl, rfl, rfl, rfl, rfl, rfl⟩) (fun _ => ⟨rfl, rfl, rfl, rfl, rfl, rfl⟩)
    (fun _ => ⟨rfl, rfl, rfl, rfl, rfl, rfl⟩)
    (fun _ => ⟨⟨rfl, rfl, rfl, rfl, rfl, rfl⟩, fun _ _ => ⟨rfl, rfl, rfl, rfl, rfl, rfl⟩⟩) h

/-- A command word either decodes to a command that runs, or sets ERR and nothing else. -/
theorem execute_cases {v : BusWord} {s t : State} (h : execute v s = .next t) :
    (∃ i, decode v = .ok i ∧ exec i s = .next t) ∨
    ∃ r, decode v = .error r ∧ t = s.setErr (if s.ctrl.bo then .platform else .illegal) := by
  cases hdec : decode v with
  | ok i => exact .inl ⟨i, rfl, by rwa [execute_of_decode hdec] at h⟩
  | error r =>
    simp only [execute, hdec, illegalCommand_eq] at h
    exact .inr ⟨r, rfl, (next_inj h).symm⟩

theorem execute_commandKept {v : BusWord} {s t : State} (h : execute v s = .next t) : CommandKept s t := by
  rcases execute_cases h with ⟨i, -, hexec⟩ | ⟨r, -, rfl⟩
  · exact exec_commandKept hexec
  · exact setErr_commandKept s _

/-- Settles O47: the first four fields of `CommandKept`. -/
theorem commandsKeepHostRegisters : Obligations.CommandsKeepHostRegisters := by
  unfold Obligations.CommandsKeepHostRegisters
  intro v s t h
  have kept := execute_commandKept h
  exact ⟨kept.ctrl, kept.gfop, kept.rkin, kept.key⟩

/-! ### What every other event leaves -/

/-- STATUS, GFRES, W, DW and the trace: what only a command or reset writes (10_state R38, R53). -/
structure ResultsKept (s t : State) : Prop where
  status : t.status = s.status
  gfres : t.gfres = s.gfres
  w : t.w = s.w
  dw : t.dw = s.dw
  trace : t.trace = s.trace

theorem ResultsKept.schedulesKept {s t : State} (h : ResultsKept s t) : SchedulesKept s t :=
  ⟨h.w, h.dw, by rw [h.status], by rw [h.status], by rw [h.status]⟩

theorem HostKept.resultsKept {s t : State} (h : HostKept s t) : ResultsKept s t :=
  ⟨h.status, h.gfres, h.w, h.dw, h.trace⟩

/-- Taking an event off and giving a response touch no result. -/
theorem ResultsKept.of_setPending_respond {s t : State} {rest : List BusEvent} (h : ResultsKept (s.setPending rest) t)
    (r : Response) : ResultsKept s (t.respond r) :=
  ⟨h.status, h.gfres, h.w, h.dw, h.trace⟩

theorem ResultsKept.refl (s : State) : ResultsKept s s := ⟨rfl, rfl, rfl, rfl, rfl⟩

/-- A step is a reset, or a CMD write whose word is executed, or it leaves every result of a command as it was. -/
theorem step_reset_or_command_or_kept {s t : State} (h : step s = .next t) :
    (∃ rest, s.pending = .reset :: rest ∧ t = resetEvent (s.setPending rest)) ∨
    (∃ v rest u, s.pending = .write 0x004#12 4 v :: rest ∧ execute v (s.setPending rest) = .next u ∧
      t = u.respond .written) ∨
    ResultsKept s t := by
  rcases step_cases h with ⟨-, rfl⟩ | ⟨off, n, rest, -, rfl⟩ | hreset | ⟨off, n, v, rest, hp, hserve⟩
  · exact .inr (.inr (.refl t))
  · exact .inr (.inr ((ResultsKept.refl _).of_setPending_respond _))
  · exact .inl hreset
  · rcases serveWrite_cases (s.setPending rest) off.toNat n v with
      ⟨r, -, hw⟩ | ⟨-, hoff, rfl, u, hu, hw⟩ | ⟨-, -, hw⟩
    all_goals
      rw [hserve] at hw
      obtain rfl := next_inj hw
    · exact .inr (.inr ((ResultsKept.refl _).of_setPending_respond _))
    · obtain rfl : off = 0x004#12 := BitVec.eq_of_toNat_eq hoff
      exact .inr (.inl ⟨v, rest, u, hp, hu, rfl⟩)
    · exact .inr (.inr ((writeLanes_kept _ _ _ _).resultsKept.of_setPending_respond _))

/-- Settles O48: neither a reset nor a CMD write of 32 bits, so the third case of what a step can do. -/
theorem onlyCommandsWriteResults : Obligations.OnlyCommandsWriteResults := by
  unfold Obligations.OnlyCommandsWriteResults
  intro s t e rest hp h hreset hcmd
  rcases step_reset_or_command_or_kept h with ⟨rest', hp', -⟩ | ⟨v, rest', u, hp', -, -⟩ | kept
  · exact absurd (List.head_eq_of_cons_eq (hp.symm.trans hp')) hreset
  · exact absurd (List.head_eq_of_cons_eq (hp.symm.trans hp')) (hcmd v)
  · exact ⟨kept.status, kept.gfres, kept.w, kept.dw, kept.trace⟩

end Sys2Proof.Machine
end

section
/-! PROOFS. The invariants of 10_state R52: they hold at reset and every step keeps them. -/
namespace Sys2Proof.Machine

open Sys2Proof.Claims

/-! ### Legal states by what they hold -/

/-- A state without schedules, as after reset and after CONFIG. -/
theorem legalState_of_cleared {s : State} (hkeyed : s.status.keyed = false) (hnk : s.status.nk = 0#4)
    (hnr : s.status.nr = 0#4) (hw : s.w = Memory.cleared) (hdw : s.dw = Memory.cleared) : LegalState s where
  formW := hw ▸ cleared_form
  formDW := hdw ▸ cleared_form
  unkeyed _ := ⟨hnk, hnr, fun j => hw ▸ Memory.read_cleared j, fun j => hdw ▸ Memory.read_cleared j⟩
  keyed hk := nomatch hkeyed.symm.trans hk

/-- A state with the schedules of a key installed. -/
theorem legalState_of_keyedForm {s : State} (hkeyed : s.status.keyed = true) (h : KeyedForm s) : LegalState s := by
  obtain ⟨ks, k, hnk, hnr, hw, hdw⟩ := h
  exact ⟨by rw [hw]; exact forwardSchedule_form ks k, by rw [hdw]; exact eqInvSchedule_form ks k,
    fun hk => (nomatch hkeyed.symm.trans hk), fun _ => ⟨ks, k, hnk, hnr, hw, hdw⟩⟩

theorem installKey_keyedForm (s : State) (ks : KeySize) (k : Bytes (4 * ks.nk)) : KeyedForm (s.installKey ks k) :=
  ⟨ks, k, ks.nk_toNat, ks.nr_toNat, rfl, rfl⟩

/-- The invariant speaks of the schedules and of KEYED, NK and NR alone. -/
theorem legalState_of_schedulesKept {s t : State} (hs : LegalState s) (h : SchedulesKept s t) : LegalState t := by
  obtain ⟨hw, hdw, hkeyed, hnk, hnr⟩ := h
  refine ⟨hw ▸ hs.formW, hdw ▸ hs.formDW, fun hk => ?_, fun hk => ?_⟩
  · rw [UnkeyedForm, hw, hdw, hnk, hnr]
    exact hs.unkeyed (hkeyed ▸ hk)
  · rw [KeyedForm, hw, hdw, hnk, hnr]
    exact hs.keyed (hkeyed ▸ hk)

/-! ### Every event keeps the invariant -/

theorem legalState_resetEvent (s : State) : LegalState (resetEvent s) := legalState_of_cleared rfl rfl rfl rfl rfl

theorem exec_legalState {i : Instr} {s t : State} (hs : LegalState s) (h : exec i s = .next t) : LegalState t := by
  by_cases hload : i = .loadKey
  · subst hload
    rcases execLoadKey_cases h with ⟨-, rfl⟩ | ⟨-, -, rfl⟩ | ⟨ks, -, -, rfl⟩
    · exact legalState_of_schedulesKept hs (setErr_schedulesKept s _)
    · exact legalState_of_cleared rfl rfl rfl rfl rfl
    · exact legalState_of_keyedForm rfl (installKey_keyedForm s ks _)
  · exact legalState_of_schedulesKept hs (exec_schedulesKept hload h)

theorem execute_legalState {v : BusWord} {s t : State} (hs : LegalState s) (h : execute v s = .next t) :
    LegalState t := by
  rcases execute_cases h with ⟨i, -, hexec⟩ | ⟨r, -, rfl⟩
  · exact exec_legalState hs hexec
  · exact legalState_of_schedulesKept hs (setErr_schedulesKept s _)

theorem step_legalState {s t : State} (hs : LegalState s) (h : step s = .next t) : LegalState t := by
  rcases step_reset_or_command_or_kept h with ⟨rest, -, rfl⟩ | ⟨v, rest, u, -, hu, rfl⟩ | kept
  · exact legalState_resetEvent _
  · have hpending : LegalState (s.setPending rest) := legalState_of_schedulesKept hs ⟨rfl, rfl, rfl, rfl, rfl⟩
    exact legalState_of_schedulesKept (execute_legalState hpending hu) ⟨rfl, rfl, rfl, rfl, rfl⟩
  · exact legalState_of_schedulesKept hs kept.schedulesKept

/-- Settles O4: a reset clears the schedules, a command other than LOAD_KEY keeps them and LOAD_KEY installs or clears
them, and no other event reaches them. -/
theorem stepKeepsInvariant : Obligations.StepKeepsInvariant := by
  unfold Obligations.StepKeepsInvariant
  exact fun s t => step_legalState

/-- Settles O3: nothing is installed after reset. -/
theorem resetMeetsInvariant : Obligations.ResetMeetsInvariant := by
  unfold Obligations.ResetMeetsInvariant
  exact legalState_of_cleared rfl rfl rfl rfl rfl

/-! ### Runs from reset -/

/-- The bytes of the two schedules of a key, by round key and by index, and the zero bytes past them. -/
theorem schedules_read (ks : KeySize) (k : Bytes (4 * ks.nk)) :
    (∀ r ≤ ks.nr, ∀ (j : Nat) (_ : j < 16),
      Memory.read (forwardSchedule ks k) (16 * r + j) = (roundKeyOfWords (keyExpansion ks k) r)[j] ∧
      Memory.read (eqInvSchedule ks k) (16 * r + j) = (eqInvRoundKey ks.nr (keyExpansion ks k) r)[j]) ∧
    ∀ j, 16 * (ks.nr + 1) ≤ j →
      Memory.read (forwardSchedule ks k) j = 0x00#8 ∧ Memory.read (eqInvSchedule ks k) j = 0x00#8 := by
  refine ⟨fun r hr j hj => ?_, fun j hj => ?_⟩
  · rw [← roundKeyOf_forwardSchedule ks k r hr, ← roundKeyOf_eqInvSchedule ks k r hr, roundKeyOf_getElem,
      roundKeyOf_getElem]
    exact ⟨rfl, rfl⟩
  · exact ⟨read_scheduleMemory_tail _ j (by simpa using hj), read_scheduleMemory_tail _ j (by simpa using hj)⟩

/-- Settles O5: a run from reset ends in a legal state, whose two clauses are the statement's. -/
theorem runsFromResetKeepSchedulesLegal : Obligations.RunsFromResetKeepSchedulesLegal := by
  unfold Obligations.RunsFromResetKeepSchedulesLegal
  intro events n t h
  have hstart : LegalState { State.reset with pending := events } := legalState_of_cleared rfl rfl rfl rfl rfl
  have ht : LegalState t := run_invariant (fun _ _ => step_legalState) n hstart h
  refine ⟨fun hk => ?_, fun hk => ?_⟩
  · obtain ⟨hnk, hnr, hw, hdw⟩ := ht.unkeyed hk
    exact ⟨hnk, hnr, fun j => ⟨hw j, hdw j⟩⟩
  · obtain ⟨ks, k, hnk, hnr, hw, hdw⟩ := ht.keyed hk
    rw [hw, hdw]
    exact ⟨ks, k, hnk, hnr, schedules_read ks k⟩

end Sys2Proof.Machine
end

section
/-! PROOFS. The step by its event: progress, reset and the CMD write (70_reset R260, R273, 20_memory R67, R75). -/
namespace Sys2Proof.Machine

open Sys2Proof.Claims

theorem step_answers (s : State) : ∃ t, step s = .next t := by
  cases hp : s.pending with
  | nil => exact ⟨s, step_of_idle hp⟩
  | cons e rest => rw [step_of_pending hp]; exact serve_answers e _

/-- Serving a write puts no event back and takes none off: its own event is already gone. -/
theorem serveWrite_pending {s t : State} {off n : Nat} {v : BusWord} (h : serveWrite s off n v = .next t) :
    t.pending = s.pending := by
  rcases serveWrite_cases s off n v with ⟨r, -, hw⟩ | ⟨-, -, -, u, hu, hw⟩ | ⟨-, -, hw⟩
  all_goals
    rw [h] at hw
    obtain rfl := next_inj hw
  · rfl
  · exact (execute_commandKept hu).pending
  · exact (writeLanes_kept s off v n).pending

theorem step_pending {s t : State} (h : step s = .next t) : t.pending = s.pending.tail := by
  rcases step_cases h with ⟨hp, rfl⟩ | ⟨off, n, rest, hp, rfl⟩ | ⟨rest, hp, rfl⟩ | ⟨off, n, v, rest, hp, hserve⟩
  · rw [hp]; rfl
  · rw [hp]; rfl
  · rw [hp]; rfl
  · rw [hp, serveWrite_pending hserve]; rfl

/-- Induction on the events still to come, each step taking one off. -/
theorem run_pending_length (n : Nat) (s : State) (h : s.pending.length = n) :
    ∃ t, Host.Core.run core n s = .next t ∧ t.pending = [] := by
  induction n generalizing s with
  | zero => exact ⟨s, run_zero s, List.length_eq_zero_iff.1 h⟩
  | succ n ih =>
    obtain ⟨u, hu⟩ := step_answers s
    obtain ⟨t, ht, hnil⟩ := ih u (by rw [step_pending hu, List.length_tail, h]; rfl)
    exact ⟨t, by rw [run_succ n hu, ht], hnil⟩

/-- Settles O6: every step answers and takes one event off, so that as many steps as events use them up. -/
theorem everyScriptRunsToItsEnd : Obligations.EveryScriptRunsToItsEnd := by
  unfold Obligations.EveryScriptRunsToItsEnd
  refine ⟨fun s => ?_, fun s => run_pending_length _ s rfl⟩
  obtain ⟨t, ht⟩ := step_answers s
  exact ⟨t, ht, step_pending ht⟩

/-- Settles O2: the step serves the reset event. -/
theorem resetPulseRestoresResetState : Obligations.ResetPulseRestoresResetState := by
  unfold Obligations.ResetPulseRestoresResetState
  intro s rest hp
  rw [step_of_pending hp]
  rfl

/-- Settles O7: the step on a CMD write is `execute` and its response, and `execute` goes by the decoder's answer. -/
theorem stepRunsDecodedCommand : Obligations.StepRunsDecodedCommand := by
  unfold Obligations.StepRunsDecodedCommand
  intro s v rest hp
  obtain ⟨t, ht⟩ := execute_answers v (s.setPending rest)
  refine ⟨t, ht, step_of_command hp ht, fun i hdec _ => ?_, fun r hdec => ?_⟩
  · rwa [execute_of_decode hdec] at ht
  · rcases execute_cases ht with ⟨i, hok, -⟩ | ⟨-, -, rfl⟩
    · rw [hok] at hdec; cases hdec
    · rfl

end Sys2Proof.Machine
end

section
/-! PROOFS. The commands' codes and results: R238's order, NOP, ADDRK_FWD, ADDRK_EQI and LOAD_KEY, and the latency. -/
namespace Sys2Proof.Machine

open Sys2Proof.Claims
open Sys2Proof.Laws

/-! ### Codes (60_exceptions R238, 70_reset R264) -/

/-- Settles O13: every word answers, with the ending of the code that R238's order gives. -/
theorem commandReportsFirstError : Obligations.CommandReportsFirstError := by
  unfold Obligations.CommandReportsFirstError
  intro v s
  obtain ⟨t, ht⟩ := execute_answers v s
  exact ⟨t, ht, (execute_endsWith ht).err⟩

/-- The commands that need neither a schedule nor a key length report OK in every state. -/
theorem errorCode_eq_ok_of_free (s : State) : ∀ i ∈ [Instr.nop, .gfAdd, .gfXtime, .gfMul, .sbox, .invSbox, .subBytes,
    .invSubBytes, .shiftRows, .invShiftRows, .mixColumns, .invMixColumns, .addRk], errorCode s i = .ok := by
  simp only [List.forall_mem_cons, List.not_mem_nil, false_imp_iff, implies_true, errorCode, and_self]

theorem errorCode_eq_noKey_of_unkeyed {s : State} (hk : s.status.keyed = false) (r : Nat) :
    ∀ i ∈ [Instr.addRkFwd r, .addRkEqi r, .cipher, .invCipher, .eqInvCipher], errorCode s i = .noKey := by
  simp only [List.forall_mem_cons, List.not_mem_nil, false_imp_iff, implies_true, errorCode, hk, if_true, and_self]

/-- Settles O17: after reset BO = 0, so each command ends with its own code, and KEYED and KEYLEN are 0. -/
theorem commandsStraightAfterReset : Obligations.CommandsStraightAfterReset := by
  unfold Obligations.CommandsStraightAfterReset
  refine ⟨fun i hi => ?free, fun r i hi => ?keyed, ?loadKey⟩
  case free =>
    obtain ⟨t, ht⟩ := exec_answers i State.reset
    have hend := exec_endsWith rfl ht
    rw [errorCode_eq_ok_of_free _ i hi] at hend
    exact ⟨t, ht, hend.err⟩
  case keyed =>
    obtain ⟨t, ht⟩ := exec_answers i State.reset
    have hend := exec_endsWith rfl ht
    rw [errorCode_eq_noKey_of_unkeyed rfl r i hi] at hend
    rw [ht, hend.eq_setErr (by decide) (by decide)]
    rfl
  case loadKey =>
    obtain ⟨t, ht⟩ := exec_answers .loadKey State.reset
    exact ⟨t, ht, (exec_endsWith rfl ht).err⟩

/-- Settles O18: NOP's word passes the common checks, and NOP sets ERR. -/
theorem nopOnlyWritesErr : Obligations.NopOnlyWritesErr := by
  unfold Obligations.NopOnlyWritesErr
  exact ⟨commonChecks_of_decode (by decide) (by decide) (by decide), fun _ => exec_nop_of_le⟩

/-! ### ADDRK_FWD and ADDRK_EQI (42_round_transforms R157, R158) -/

theorem decode_wordOf_addRkFwd (r : Byte) : decode (wordOf 0x17#8 r) = .ok (.addRkFwd r.toNat) := by
  obtain ⟨hop, hround, hrsv⟩ := EncodingFields.fields_of_parts 0x17#8 r
  rw [wordOf_eq_append, decode_eq_ok_iff, hop, hround, hrsv]
  exact ⟨rfl, rfl, nofun⟩

theorem decode_wordOf_addRkEqi (r : Byte) : decode (wordOf 0x18#8 r) = .ok (.addRkEqi r.toNat) := by
  obtain ⟨hop, hround, hrsv⟩ := EncodingFields.fields_of_parts 0x18#8 r
  rw [wordOf_eq_append, decode_eq_ok_iff, hop, hround, hrsv]
  exact ⟨rfl, rfl, nofun⟩

/-- A command whose own code is neither OK nor CONFIG sets ERR to it and does nothing else. -/
theorem exec_of_errorCode {i : Instr} {s : State} {e : ErrCode} (hbo : s.ctrl.bo = false) (he : errorCode s i = e)
    (hok : e ≠ .ok) (hconfig : e ≠ .config) : exec i s = .next (withErr s e) := by
  obtain ⟨t, ht⟩ := exec_answers i s
  have hend := exec_endsWith hbo ht
  rw [he] at hend
  rw [ht, hend.eq_setErr hok hconfig]
  rfl

/-- Round keys 0 and NR are the same in both schedules of a legal keyed state (43_key_schedule R178). -/
theorem roundKeyEqi_eq_roundKeyFwd {s : State} (h : KeyedForm s) {r : Nat} (hr : r = 0 ∨ r = s.status.nr.toNat) :
    s.roundKeyEqi r = s.roundKeyFwd r := by
  obtain ⟨ks, k, -, hnr, hw, hdw⟩ := h
  rw [State.roundKeyEqi, State.roundKeyFwd, hw, hdw]
  exact roundKeyOf_eqInvSchedule_of_end ks k r (hnr ▸ hr)

/-- Settles O27: the codes come in the order of `errorCode`, and otherwise the round key read from the schedule is
added. -/
theorem addRkRoundCommandsCompute : Obligations.AddRkRoundCommandsCompute := by
  unfold Obligations.AddRkRoundCommandsCompute
  refine ⟨fun r => ⟨decode_wordOf_addRkFwd r, decode_wordOf_addRkEqi r⟩, fun r s => ⟨fun hbo => ?platform,
    fun hbo hk => ?noKey, fun hbo hk hr => ?operand, fun hbo hk hr => ?adds⟩⟩
  case platform => exact ⟨exec_of_bo _ hbo, exec_of_bo _ hbo⟩
  case noKey =>
    exact ⟨exec_of_errorCode hbo (by simp [errorCode, hk]) (by decide) (by decide),
      exec_of_errorCode hbo (by simp [errorCode, hk]) (by decide) (by decide)⟩
  case operand =>
    exact ⟨exec_of_errorCode hbo (by simp [errorCode, hk, hr]) (by decide) (by decide),
      exec_of_errorCode hbo (by simp [errorCode, hk, hr]) (by decide) (by decide)⟩
  case adds =>
    refine ⟨_, _, exec_addRkFwd_of_keyed hbo hk hr, exec_addRkEqi_of_keyed hbo hk hr, fun k hlt => ?_,
      fun hlegal hends => ?_⟩
    · rw [addRoundKey_getElem, addRoundKey_getElem, State.roundKeyFwd, State.roundKeyEqi, roundKeyOf_getElem,
        roundKeyOf_getElem]
      exact ⟨rfl, rfl⟩
    · rw [roundKeyEqi_eq_roundKeyFwd (hlegal.keyed hk) hends]

/-! ### LOAD_KEY (43_key_schedule R180) -/

/-- A key installed with ERR = OK, as an update of STATUS, W and DW. -/
theorem setSchedules_setErr_eq (s : State) (keyed : Bool) (nk nr : BitVec 4) (w dw : Memory) (e : ErrCode) :
    (s.setSchedules keyed nk nr w dw).setErr e =
      { s with status := { err := e, keyed := keyed, nk := nk, nr := nr }, w := w, dw := dw } := rfl

@[simp] theorem State.installKey_status (s : State) (ks : KeySize) (k : Bytes (4 * ks.nk)) :
    (s.installKey ks k).status =
      { s.status with keyed := true, nk := BitVec.ofNat 4 ks.nk, nr := BitVec.ofNat 4 ks.nr } := by
  rw [State.installKey, State.setSchedules_status]

/-- Settles O30: the schedules of the key size are installed, and a schedule memory is zero past its round keys. -/
theorem loadKeyCompletes : Obligations.LoadKeyCompletes := by
  unfold Obligations.LoadKeyCompletes
  rintro s nk ⟨hbo, hmem, hlen⟩
  obtain ⟨ks, rfl⟩ := exists_keySize_of_mem hmem
  refine ⟨_, exec_loadKey_of_keylen ks hbo hlen, ?_, ?_⟩
  · rw [State.installKey, setSchedules_setErr_eq, KeySize.nr]
  · rw [State.setErr_w, State.setErr_dw, State.installKey_w, State.installKey_dw]
    exact (schedules_read ks _).2

theorem exec_loadKey_of_unsupported {s : State} (hbo : s.ctrl.bo = false)
    (hlen : keySizeOfKeylen s.ctrl.keylen = none) : exec .loadKey s = .next (s.discardKey.setErr .config) := by
  rw [exec_loadKey, execLoadKey, command_of_le hbo, hlen]
  rfl

theorem keyPrefix_congr {s t : State} {n : Nat} (h : n ≤ 32)
    (hkey : ∀ (j : Nat) (_ : j < 32), j < n → s.key[j] = t.key[j]) : s.keyPrefix n h = t.keyPrefix n h := by
  ext j hj
  rw [keyPrefix_getElem, keyPrefix_getElem, hkey j (by omega) hj]

/-- Settles O33: KEYLEN decides whether the schedules are discarded or those of the key's first bytes installed. -/
theorem loadKeyReadsOnlyKeyPrefix : Obligations.LoadKeyReadsOnlyKeyPrefix := by
  unfold Obligations.LoadKeyReadsOnlyKeyPrefix
  intro s t hctrl hbo hkey
  have hbo' : t.ctrl.bo = false := hctrl ▸ hbo
  cases hlen : keySizeOfKeylen s.ctrl.keylen with
  | none =>
    exact ⟨_, _, exec_loadKey_of_unsupported hbo hlen, exec_loadKey_of_unsupported hbo' (hctrl ▸ hlen), rfl, rfl, rfl⟩
  | some ks =>
    have hbytes : s.ctrl.keylen.toNat = 4 * ks.nk := keySizeOfKeylen_eq_some hlen
    have hprefix := keyPrefix_congr ks.bytes_le fun j hj hlt => hkey j hj (hbytes ▸ hlt)
    refine ⟨_, _, exec_loadKey_of_keylen ks hbo hbytes, exec_loadKey_of_keylen ks hbo' (hctrl ▸ hbytes), ?_, ?_, ?_⟩
    · simp only [State.setErr_w, State.installKey_w, hprefix]
    · simp only [State.setErr_dw, State.installKey_dw, hprefix]
    · simp only [State.setErr_status, State.installKey_status]

/-! ### Latency (70_reset R271, R272) -/

theorem reportedCode_congr {s t : State} (hctrl : s.ctrl = t.ctrl) (hstatus : s.status = t.status) (v : BusWord) :
    reportedCode v s = reportedCode v t := by
  simp only [reportedCode, hctrl, hstatus]

/-- The NK that LOAD_KEY leaves is decided by CTRL and by the NK before it. -/
theorem exec_loadKey_nk_congr {s t s' t' : State} (hctrl : s.ctrl = t.ctrl) (hstatus : s.status = t.status)
    (hs : exec .loadKey s = .next s') (ht : exec .loadKey t = .next t') : s'.status.nk = t'.status.nk := by
  rcases execLoadKey_cases hs with ⟨hbo, rfl⟩ | ⟨hbo, hlen, rfl⟩ | ⟨ks, hbo, hlen, rfl⟩
  · rw [exec_of_bo _ (hctrl ▸ hbo)] at ht
    obtain rfl := next_inj ht
    simp only [State.setErr_status, hstatus]
  · rw [exec_loadKey_of_unsupported (hctrl ▸ hbo) (hctrl ▸ hlen)] at ht
    obtain rfl := next_inj ht
    rfl
  · rw [exec_loadKey_of_keylen ks (hctrl ▸ hbo) (hctrl ▸ keySizeOfKeylen_eq_some hlen)] at ht
    obtain rfl := next_inj ht
    simp only [State.setErr_status, State.installKey_status]

theorem execute_nk_congr {v : BusWord} {s t s' t' : State} (hctrl : s.ctrl = t.ctrl) (hstatus : s.status = t.status)
    (hs : execute v s = .next s') (ht : execute v t = .next t') : s'.status.nk = t'.status.nk := by
  by_cases hload : v = wordOf 0x20#8 0x00#8
  · have hdec : decode v = .ok .loadKey := by rw [hload]; decide
    rw [execute_of_decode hdec] at hs ht
    exact exec_loadKey_nk_congr hctrl hstatus hs ht
  · obtain ⟨-, -, -, hnk, -⟩ := execute_schedulesKept hload hs
    obtain ⟨-, -, -, hnk', -⟩ := execute_schedulesKept hload ht
    rw [hnk, hnk', hstatus]

/-- Settles O56: LAT is given the word's opcode, TRACE_EN, and the NK and the code that the command leaves. -/
theorem latencyIgnoresData : Obligations.LatencyIgnoresData := by
  unfold Obligations.LatencyIgnoresData
  intro v s t hctrl hstatus
  obtain ⟨s', hs⟩ := execute_answers v s
  obtain ⟨t', ht⟩ := execute_answers v t
  have herr : s'.status.err = t'.status.err := by
    rw [(execute_endsWith hs).err, (execute_endsWith ht).err, reportedCode_congr hctrl hstatus]
  simp only [commandLatency, hs, ht, execute_nk_congr hctrl hstatus hs ht, herr, hctrl]

end Sys2Proof.Machine
end

section
/-! PROOFS. The round transformations: each undoes its inverse, and which bytes each byte depends on
(42_round_transforms R147, R149). -/
namespace Sys2Proof.Machine

/-! ### Permutations of bytes and look-ups -/

theorem invSubBytes_subBytes (s : Block) : invSubBytes (subBytes s) = s := by
  ext k hk
  rw [invSubBytes_getElem, subBytes_getElem, invSbox_sbox]

theorem subBytes_invSubBytes (s : Block) : subBytes (invSubBytes s) = s := by
  ext k hk
  rw [subBytes_getElem, invSubBytes_getElem, sbox_invSbox]

/-- Two blocks are equal when they agree in every row and column (00_scope R13). -/
theorem block_ext_rowCol {s t : Block} (h : ∀ (r c : Nat) (_ : r < 4) (_ : c < 4), s[r + 4 * c] = t[r + 4 * c]) :
    s = t := by
  refine Vector.ext fun k hk => ?_
  simpa only [Nat.mod_add_div] using h (k % 4) (k / 4) (by omega) (by omega)

theorem invShiftRows_shiftRows (s : Block) : invShiftRows (shiftRows s) = s := by
  refine block_ext_rowCol fun r c hr hc => ?_
  have hcol : ((c + 4 - r) % 4 + r) % 4 = c := by omega
  rw [invShiftRows_getElem_rowCol _ _ _ hr hc, shiftRows_getElem_rowCol _ _ _ hr (by omega)]
  simp only [hcol]

theorem shiftRows_invShiftRows (s : Block) : shiftRows (invShiftRows s) = s := by
  refine block_ext_rowCol fun r c hr hc => ?_
  have hcol : ((c + r) % 4 + 4 - r) % 4 = c := by omega
  rw [shiftRows_getElem_rowCol _ _ _ hr hc, invShiftRows_getElem_rowCol _ _ _ hr (by omega)]
  simp only [hcol]

theorem addRoundKey_cancel (s k : Block) : addRoundKey (addRoundKey s k) k = s := xorBytes_cancel s k

/-- A look-up of every byte and a permutation of the bytes, in either order. -/
theorem invSubBytes_invShiftRows (s : Block) : invSubBytes (invShiftRows s) = invShiftRows (invSubBytes s) := by
  ext k hk
  simp only [invSubBytes_getElem, invShiftRows_getElem]

/-! ### Matrices over the field -/

theorem XorLinear.comp {f g : Byte → Byte} (hf : XorLinear f) (hg : XorLinear g) : XorLinear fun x => f (g x) :=
  fun x y => (congrArg f (hg x y)).trans (hf (g x) (g y))

theorem gfMul_assoc_twoPow : ∀ i < 8, ∀ j < 8, ∀ k < 8,
    gfMul (gfMul (BitVec.twoPow 8 i) (BitVec.twoPow 8 j)) (BitVec.twoPow 8 k) =
      gfMul (BitVec.twoPow 8 i) (gfMul (BitVec.twoPow 8 j) (BitVec.twoPow 8 k)) := by
  decide

/-- Both bracketings respect addition in each of the three operands, and agree on the powers. -/
theorem gfMul_assoc (a b c : Byte) : gfMul (gfMul a b) c = gfMul a (gfMul b c) := by
  have left := xorBilinear_gfMul.left
  have right := xorBilinear_gfMul.right
  refine ((left c).comp (left b)).ext (left (gfMul b c)) (fun i hi => ?_) a
  refine ((left c).comp (right _)).ext ((right _).comp (left c)) (fun j hj => ?_) b
  exact (right _).ext ((right _).comp (right _)) (gfMul_assoc_twoPow i hi j hj) c

theorem gfMul_zero_left (b : Byte) : gfMul 0x00#8 b = 0x00#8 := (xorBilinear_gfMul.left b).map_zero

theorem gfMul_one_left : ∀ b : Byte, gfMul 0x01#8 b = b := by decide

/-- The product of two matrices. -/
def matMul (m n : Vector (Bytes 4) 4) : Vector (Bytes 4) 4 :=
  Vector.ofFn fun r => Vector.ofFn fun i =>
    gfAdd (gfAdd (gfMul m[r][0] n[0][i]) (gfMul m[r][1] n[1][i]))
      (gfAdd (gfMul m[r][2] n[2][i]) (gfMul m[r][3] n[3][i]))

theorem matMul_getElem (m n : Vector (Bytes 4) 4) (r i : Nat) (hr : r < 4) (hi : i < 4) :
    (matMul m n)[r][i] =
      gfAdd (gfAdd (gfMul m[r][0] n[0][i]) (gfMul m[r][1] n[1][i]))
        (gfAdd (gfMul m[r][2] n[2][i]) (gfMul m[r][3] n[3][i])) := by
  simp [matMul]

/-- The first byte of a column, whose index has no row to add. -/
theorem mixWith_getElem_firstRow (m : Vector (Bytes 4) 4) (s : Block) (c : Nat) (hc : c < 4) :
    (mixWith m s)[4 * c] = mixByte m[0] s c hc := by
  simpa only [Nat.zero_add] using mixWith_getElem_rowCol m s 0 c (by decide) hc

theorem mixWith_mixWith (m n : Vector (Bytes 4) 4) (s : Block) : mixWith m (mixWith n s) = mixWith (matMul m n) s := by
  refine block_ext_rowCol fun r c hr hc => ?_
  rw [mixWith_getElem_rowCol _ _ _ _ hr hc, mixWith_getElem_rowCol _ _ _ _ hr hc, mixByte, mixByte,
    mixWith_getElem_firstRow _ _ _ hc, mixWith_getElem_rowCol _ _ _ _ (by decide) hc,
    mixWith_getElem_rowCol _ _ _ _ (by decide) hc, mixWith_getElem_rowCol _ _ _ _ (by decide) hc]
  simp only [mixByte, matMul_getElem, gfMul_gfAdd_left, gfMul_gfAdd_right, gfMul_assoc]
  simp only [gfAdd]
  ac_rfl

/-- The matrix whose rows pick one byte of the column. -/
def identityMatrix : Vector (Bytes 4) 4 := circulant #v[0x01, 0x00, 0x00, 0x00]

theorem mixWith_identityMatrix (s : Block) : mixWith identityMatrix s = s := by
  refine block_ext_rowCol fun r c hr hc => ?_
  rw [mixWith_getElem_rowCol _ _ _ _ hr hc, mixByte, identityMatrix]
  simp only [circulant_getElem, gfAdd]
  interval_cases r <;> simp [gfMul_one_left, gfMul_zero_left]

theorem matMul_invMixMatrix_mixMatrix : matMul invMixMatrix mixMatrix = identityMatrix := by decide

theorem matMul_mixMatrix_invMixMatrix : matMul mixMatrix invMixMatrix = identityMatrix := by decide

theorem invMixColumns_mixColumns (s : Block) : invMixColumns (mixColumns s) = s := by
  rw [invMixColumns, mixColumns, mixWith_mixWith, matMul_invMixMatrix_mixMatrix, mixWith_identityMatrix]

theorem mixColumns_invMixColumns (s : Block) : mixColumns (invMixColumns s) = s := by
  rw [invMixColumns, mixColumns, mixWith_mixWith, matMul_mixMatrix_invMixMatrix, mixWith_identityMatrix]

/-- InvMixColumns of a sum is the sum of its values: what makes the equivalent inverse schedule work
(43_key_schedule R175). -/
theorem invMixColumns_addRoundKey (s k : Block) :
    invMixColumns (addRoundKey s k) = addRoundKey (invMixColumns s) (invMixColumns k) := by
  refine block_ext_rowCol fun r c hr hc => ?_
  rw [addRoundKey_getElem, invMixColumns, invMixColumns, invMixColumns, mixWith_getElem_rowCol _ _ _ _ hr hc,
    mixWith_getElem_rowCol _ _ _ _ hr hc, mixWith_getElem_rowCol _ _ _ _ hr hc]
  simp only [mixByte, addRoundKey_getElem, gfAdd, xorBilinear_gfMul.right _ _ _]
  ac_rfl

/-- Settles O28: the laws above, one for each pair and order. -/
theorem transformationsUndoEachOther : Obligations.TransformationsUndoEachOther := by
  unfold Obligations.TransformationsUndoEachOther
  exact fun s k => ⟨invShiftRows_shiftRows s, shiftRows_invShiftRows s, invMixColumns_mixColumns s,
    mixColumns_invMixColumns s, invSubBytes_subBytes s, subBytes_invSubBytes s, addRoundKey_cancel s k⟩

/-! ### Lanes, rows and columns (42_round_transforms R149) -/

/-- A mixed byte depends on its own column only. -/
theorem mixWith_getElem_congr (m : Vector (Bytes 4) 4) {s t : Block} {c : Nat} (hc : c < 4)
    (h : ∀ (r : Nat) (_ : r < 4), s[r + 4 * c] = t[r + 4 * c]) (r : Nat) (hr : r < 4) :
    (mixWith m s)[r + 4 * c] = (mixWith m t)[r + 4 * c] := by
  have h0 : s[4 * c] = t[4 * c] := by simpa only [Nat.zero_add] using h 0 (by decide)
  rw [mixWith_getElem_rowCol _ _ _ _ hr hc, mixWith_getElem_rowCol _ _ _ _ hr hc, mixByte, mixByte, h0,
    h 1 (by decide), h 2 (by decide), h 3 (by decide)]

/-- Settles O29: each byte by the laws of `getElem`; the source of a shifted byte has the row it goes to. -/
theorem transformationLanes : Obligations.TransformationLanes := by
  unfold Obligations.TransformationLanes
  refine ⟨fun s t a b k hk h => ⟨?_, ?_, fun hkey => ?_⟩, fun k hk => ?_, fun s t c hc h r hr => ⟨?_, ?_⟩⟩
  · rw [subBytes_getElem, subBytes_getElem, h]
  · rw [invSubBytes_getElem, invSubBytes_getElem, h]
  · rw [addRoundKey_getElem, addRoundKey_getElem, h, hkey]
  · exact ⟨_, _, by omega, by omega, by omega, by omega,
      fun s => ⟨shiftRows_getElem s k hk, invShiftRows_getElem s k hk⟩⟩
  · exact mixWith_getElem_congr _ hc h r hr
  · exact mixWith_getElem_congr _ hc h r hr

end Sys2Proof.Machine
end

section
/-! PROOFS. An engine as a list of single steps, each a command of its own: the same blocks, one record for each
(44_cipher_engines R190 to R192, R198). -/
namespace Sys2Proof.Machine

open Sys2Proof.Claims

/-! ### Lists laid out by rounds -/

theorem map_overRounds {α β : Type} (g : α → β) (first : α) (rounds : List Nat) (items : Nat → List α) (last : List α) :
    (overRounds first rounds items last).map g =
      overRounds (g first) rounds (fun r => (items r).map g) (last.map g) := by
  simp [overRounds, List.map_flatMap]

theorem foldl_overRounds {α β : Type} (f : β → α → β) (init : β) (first : α) (rounds : List Nat)
    (items : Nat → List α) (last : List α) :
    (overRounds first rounds items last).foldl f init =
      last.foldl f (rounds.foldl (fun x r => (items r).foldl f x) (f init first)) := by
  simp [overRounds, List.foldl_flatMap]

theorem forall_mem_overRounds {α : Type} {P : α → Prop} {first : α} {rounds : List Nat} {items : Nat → List α}
    {last : List α} (hfirst : P first) (hitems : ∀ r ∈ rounds, ∀ a ∈ items r, P a) (hlast : ∀ a ∈ last, P a) :
    ∀ a ∈ overRounds first rounds items last, P a := by
  simp only [overRounds, List.mem_cons, List.mem_append, List.mem_flatMap]
  rintro a (rfl | ⟨r, hr, ha⟩ | ha)
  · exact hfirst
  · exact hitems r hr a ha
  · exact hlast a ha

theorem length_overRounds {α : Type} (first : α) (rounds : List Nat) (items : Nat → List α) (last : List α) {n : Nat}
    (h : ∀ r, (items r).length = n) :
    (overRounds first rounds items last).length = 1 + rounds.length * n + last.length := by
  simp [overRounds, List.length_flatMap, h]
  omega

/-! ### Single steps -/

/-- One transformation of an engine: the command that does it alone, its trace label, and what it does to the block. -/
structure SingleStep where
  instr : Instr
  label : Nat × TraceStep
  effect : Block → Block

/-- The step inside an engine's run. -/
def SingleStep.extend (engine : Engine) (run : EngineRun) (a : SingleStep) : EngineRun :=
  runStep engine a.label.1 a.label.2 a.effect run

/-- An engine's run of single steps. -/
def runSteps (engine : Engine) (steps : List SingleStep) (run : EngineRun) : EngineRun :=
  steps.foldl (SingleStep.extend engine) run

@[simp] theorem runSteps_cons (engine : Engine) (a : SingleStep) (steps : List SingleStep) (run : EngineRun) :
    runSteps engine (a :: steps) run = runSteps engine steps (SingleStep.extend engine run a) := rfl

theorem runSteps_concat (engine : Engine) (a : SingleStep) (steps : List SingleStep) (run : EngineRun) :
    runSteps engine (steps ++ [a]) run = SingleStep.extend engine (runSteps engine steps run) a := by
  simp [runSteps]

/-- `s` with another block in STATE and another code in ERR: what single commands on the way leave of `s`. -/
def State.holding (s : State) (x : Block) (e : ErrCode) : State := (s.setState x).setErr e

/-- The command of a step does to STATE what the step does to the block, and nothing else but ERR. -/
def SingleStep.Performed (s : State) (a : SingleStep) : Prop :=
  ∀ x e, exec a.instr (s.holding x e) = .next (s.holding (a.effect x) .ok)

/-! ### A run of steps and the commands one after another -/

/-- The commands complete and leave the block of the run, and the log grows by one record for each. -/
theorem runCommands_holding {s : State} (engine : Engine) {steps : List SingleStep} (h : ∀ a ∈ steps, a.Performed s)
    (run : EngineRun) :
    runCommands (steps.map SingleStep.instr) (s.holding run.block .ok) =
        .next (s.holding (runSteps engine steps run).block .ok) ∧
      (runSteps engine steps run).log = run.log ++ recordsOf engine (steps.map SingleStep.label)
        (statesAfter (steps.map SingleStep.instr) (s.holding run.block .ok)) := by
  induction steps generalizing run with
  | nil => simp [runCommands, recordsOf, runSteps]
  | cons a steps ih =>
    obtain ⟨ha, hrest⟩ := List.forall_mem_cons.1 h
    obtain ⟨hrun, hlog⟩ := ih hrest (SingleStep.extend engine run a)
    refine ⟨?_, ?_⟩
    · simp only [List.map_cons, runCommands, ha run.block .ok]
      exact hrun
    · simp only [List.map_cons, statesAfter, ha run.block .ok, recordsOf, List.zipWith_cons_cons]
      rw [runSteps_cons, hlog]
      simp [SingleStep.extend, recordsOf, State.holding]

/-- The code in ERR before a first command that is performed does not matter. -/
theorem runCommands_err {s : State} {a : SingleStep} (ha : a.Performed s) (l : List Instr) (x : Block) (e : ErrCode) :
    runCommands (a.instr :: l) (s.holding x e) = runCommands (a.instr :: l) (s.holding x .ok) ∧
      statesAfter (a.instr :: l) (s.holding x e) = statesAfter (a.instr :: l) (s.holding x .ok) := by
  simp only [runCommands, statesAfter, ha x e, ha x .ok, and_self]

/-- The same of the whole list of steps, from the state `s` itself and with no records before. -/
theorem runCommands_steps {s : State} (engine : Engine) {steps : List SingleStep} (hne : steps ≠ [])
    (h : ∀ a ∈ steps, a.Performed s) :
    runCommands (steps.map SingleStep.instr) s =
        .next (s.holding (runSteps engine steps { block := s.state, log := [] }).block .ok) ∧
      (runSteps engine steps { block := s.state, log := [] }).log =
        recordsOf engine (steps.map SingleStep.label) (statesAfter (steps.map SingleStep.instr) s) := by
  obtain ⟨a, rest, rfl⟩ := List.exists_cons_of_ne_nil hne
  obtain ⟨hrun, hlog⟩ := runCommands_holding engine h { block := s.state, log := [] }
  obtain ⟨hrun', hstates⟩ :=
    runCommands_err (List.forall_mem_cons.1 h).1 (rest.map SingleStep.instr) s.state s.status.err
  exact ⟨hrun'.trans hrun, hlog.trans (congrArg (recordsOf engine _) hstates.symm)⟩

/-! ### The records of a run -/

theorem runSteps_log_length (engine : Engine) (steps : List SingleStep) (run : EngineRun) :
    (runSteps engine steps run).log.length = run.log.length + steps.length := by
  induction steps generalizing run with
  | nil => rfl
  | cons a steps ih => rw [runSteps_cons, ih]; simp [SingleStep.extend]; omega

/-- Every record of a run has the round label of one of its steps. -/
theorem runSteps_log_round (engine : Engine) (steps : List SingleStep) (x : Block) :
    ∀ r ∈ (runSteps engine steps { block := x, log := [] }).log,
      ∃ a ∈ steps, r.round = BitVec.ofNat 4 a.label.1 := by
  induction steps using List.reverseRecOn with
  | nil => simp [runSteps]
  | append_singleton steps a ih =>
    intro r hr
    rw [runSteps_concat, SingleStep.extend, runStep_log, List.mem_append, List.mem_singleton] at hr
    rcases hr with hr | rfl
    · obtain ⟨b, hb, hround⟩ := ih r hr
      exact ⟨b, List.mem_append_left _ hb, hround⟩
    · exact ⟨a, by simp, rfl⟩

/-- A run of at least one step ends with the record of the block it leaves. -/
theorem runSteps_log_last (engine : Engine) {steps : List SingleStep} (hne : steps ≠ []) (x : Block) :
    ∃ records last, (runSteps engine steps { block := x, log := [] }).log = records ++ [last] ∧
      records.length + 1 = steps.length ∧ last.data = (runSteps engine steps { block := x, log := [] }).block := by
  obtain ⟨init, a, rfl⟩ := (List.eq_nil_or_concat' steps).resolve_left hne
  rw [runSteps_concat]
  exact ⟨_, _, runStep_log .., by simp [runSteps_log_length], rfl⟩

/-! ### The steps of the three engines -/

def subBytesStep (r : Nat) : SingleStep := ⟨.subBytes, (r, .sb), subBytes⟩
def shiftRowsStep (r : Nat) : SingleStep := ⟨.shiftRows, (r, .sr), shiftRows⟩
def mixColumnsStep (r : Nat) : SingleStep := ⟨.mixColumns, (r, .mc), mixColumns⟩
def invSubBytesStep (r : Nat) : SingleStep := ⟨.invSubBytes, (r, .isb), invSubBytes⟩
def invShiftRowsStep (r : Nat) : SingleStep := ⟨.invShiftRows, (r, .isr), invShiftRows⟩
def invMixColumnsStep (r : Nat) : SingleStep := ⟨.invMixColumns, (r, .imc), invMixColumns⟩
def addRkFwdStep (s : State) (r : Nat) : SingleStep := ⟨.addRkFwd r, (r, .ark), (addRoundKey · (s.roundKeyFwd r))⟩
def addRkEqiStep (s : State) (r : Nat) : SingleStep := ⟨.addRkEqi r, (r, .ark), (addRoundKey · (s.roundKeyEqi r))⟩

/-- The command that runs an engine. -/
def engineInstr : Engine → Instr
  | .cipher => .cipher
  | .invCipher => .invCipher
  | .eqInvCipher => .eqInvCipher

/-- The steps of each engine in a state (44_cipher_engines R190 to R192). -/
def engineSteps (s : State) : Engine → List SingleStep
  | .cipher => overRounds (addRkFwdStep s 0) (roundsUp s.numRounds)
      (fun r => [subBytesStep r, shiftRowsStep r, mixColumnsStep r, addRkFwdStep s r])
      [subBytesStep s.numRounds, shiftRowsStep s.numRounds, addRkFwdStep s s.numRounds]
  | .invCipher => overRounds (addRkFwdStep s s.numRounds) (roundsDown s.numRounds)
      (fun r => [invShiftRowsStep r, invSubBytesStep r, addRkFwdStep s r, invMixColumnsStep r])
      [invShiftRowsStep 0, invSubBytesStep 0, addRkFwdStep s 0]
  | .eqInvCipher => overRounds (addRkEqiStep s s.numRounds) (roundsDown s.numRounds)
      (fun r => [invSubBytesStep r, invShiftRowsStep r, invMixColumnsStep r, addRkEqiStep s r])
      [invSubBytesStep 0, invShiftRowsStep 0, addRkEqiStep s 0]

theorem engineSteps_ne_nil (s : State) (e : Engine) : engineSteps s e ≠ [] := by
  cases e <;> exact List.cons_ne_nil _ _

/-- "`4*Nr` records" (44_cipher_engines R198): one step, four for each middle round, and three. -/
theorem engineSteps_length (s : State) (e : Engine) (h : 0 < s.numRounds) :
    (engineSteps s e).length = 4 * s.numRounds := by
  cases e <;>
    (rw [engineSteps, length_overRounds (n := 4) _ _ _ _ fun _ => rfl]
     simp [roundsDown]
     omega)

/-- Each engine's command is the run of its steps. -/
theorem exec_engineInstr {s : State} (hbo : s.ctrl.bo = false) (hk : s.status.keyed = true) (e : Engine) :
    exec (engineInstr e) s =
      .next ((s.takeRun (runSteps e (engineSteps s e) { block := s.state, log := [] })).setErr .ok) := by
  cases e with
  | cipher => rw [engineInstr, exec_cipher_of_keyed hbo hk, runSteps, engineSteps, foldl_overRounds]; rfl
  | invCipher => rw [engineInstr, exec_invCipher_of_keyed hbo hk, runSteps, engineSteps, foldl_overRounds]; rfl
  | eqInvCipher => rw [engineInstr, exec_eqInvCipher_of_keyed hbo hk, runSteps, engineSteps, foldl_overRounds]; rfl

/-! ### Each step is performed by its command, with a label the schedule reaches -/

/-- The step's command performs it, and its round label is no larger than NR. -/
def SingleStep.Sound (s : State) (a : SingleStep) : Prop := a.Performed s ∧ a.label.1 ≤ s.numRounds

section Sound

variable {s : State} (hbo : s.ctrl.bo = false) {r : Nat} (hr : r ≤ s.numRounds)
include hbo hr

theorem subBytesStep_sound : (subBytesStep r).Sound s := ⟨fun _ _ => exec_subBytes_of_le hbo, hr⟩
theorem shiftRowsStep_sound : (shiftRowsStep r).Sound s := ⟨fun _ _ => exec_shiftRows_of_le hbo, hr⟩
theorem mixColumnsStep_sound : (mixColumnsStep r).Sound s := ⟨fun _ _ => exec_mixColumns_of_le hbo, hr⟩
theorem invSubBytesStep_sound : (invSubBytesStep r).Sound s := ⟨fun _ _ => exec_invSubBytes_of_le hbo, hr⟩
theorem invShiftRowsStep_sound : (invShiftRowsStep r).Sound s := ⟨fun _ _ => exec_invShiftRows_of_le hbo, hr⟩
theorem invMixColumnsStep_sound : (invMixColumnsStep r).Sound s := ⟨fun _ _ => exec_invMixColumns_of_le hbo, hr⟩

variable (hk : s.status.keyed = true)
include hk

theorem addRkFwdStep_sound : (addRkFwdStep s r).Sound s := ⟨fun _ _ => exec_addRkFwd_of_keyed hbo hk hr, hr⟩
theorem addRkEqiStep_sound : (addRkEqiStep s r).Sound s := ⟨fun _ _ => exec_addRkEqi_of_keyed hbo hk hr, hr⟩

end Sound

theorem engineSteps_sound {s : State} (hbo : s.ctrl.bo = false) (hk : s.status.keyed = true) (e : Engine) :
    ∀ a ∈ engineSteps s e, a.Sound s := by
  cases e with
  | cipher =>
    refine forall_mem_overRounds (addRkFwdStep_sound hbo (Nat.zero_le _) hk) (fun r hr => ?_) ?_
    · have hle : r ≤ s.numRounds := by have := (mem_roundsUp.1 hr).2; omega
      simp [subBytesStep_sound hbo hle, shiftRowsStep_sound hbo hle, mixColumnsStep_sound hbo hle,
        addRkFwdStep_sound hbo hle hk]
    · simp [subBytesStep_sound hbo, shiftRowsStep_sound hbo, addRkFwdStep_sound hbo le_rfl hk]
  | invCipher =>
    refine forall_mem_overRounds (addRkFwdStep_sound hbo le_rfl hk) (fun r hr => ?_) ?_
    · have hle : r ≤ s.numRounds := by have := (mem_roundsDown.1 hr).2; omega
      simp [invShiftRowsStep_sound hbo hle, invSubBytesStep_sound hbo hle, addRkFwdStep_sound hbo hle hk,
        invMixColumnsStep_sound hbo hle]
    · simp [invShiftRowsStep_sound hbo, invSubBytesStep_sound hbo, addRkFwdStep_sound hbo (Nat.zero_le _) hk]
  | eqInvCipher =>
    refine forall_mem_overRounds (addRkEqiStep_sound hbo le_rfl hk) (fun r hr => ?_) ?_
    · have hle : r ≤ s.numRounds := by have := (mem_roundsDown.1 hr).2; omega
      simp [invSubBytesStep_sound hbo hle, invShiftRowsStep_sound hbo hle, invMixColumnsStep_sound hbo hle,
        addRkEqiStep_sound hbo hle hk]
    · simp [invSubBytesStep_sound hbo, invShiftRowsStep_sound hbo, addRkEqiStep_sound hbo (Nat.zero_le _) hk]

/-! ### The cipher commands are their single steps -/

/-- An engine whose steps are the commands of a script and have its labels is that script. -/
theorem engineIsScript_of_steps (e : Engine) {script : Nat → List Instr} {labels : Nat → List (Nat × TraceStep)}
    (hscript : ∀ s, (engineSteps s e).map SingleStep.instr = script s.numRounds)
    (hlabels : ∀ s, (engineSteps s e).map SingleStep.label = labels s.numRounds) :
    EngineIsScript (engineInstr e) e script labels := by
  intro s hbo hk
  have performed (a : SingleStep) (ha : a ∈ engineSteps s e) : a.Performed s := (engineSteps_sound hbo hk e a ha).1
  obtain ⟨hrun, hlog⟩ := runCommands_steps e (engineSteps_ne_nil s e) performed
  rw [hscript s] at hrun hlog
  rw [hlabels s] at hlog
  refine ⟨_, hrun, ?_⟩
  rw [exec_engineInstr hbo hk e, State.takeRun, hlog]
  rfl

/-- Settles O35: the steps' commands are the script of `Cipher`, and their labels its labels. -/
theorem cipherIsItsSingleSteps : Obligations.CipherIsItsSingleSteps := by
  unfold Obligations.CipherIsItsSingleSteps
  exact engineIsScript_of_steps .cipher (fun s => by rw [engineSteps, map_overRounds]; rfl)
    fun s => by rw [engineSteps, map_overRounds]; rfl

/-- Settles O36: the same of `InvCipher`. -/
theorem invCipherIsItsSingleSteps : Obligations.InvCipherIsItsSingleSteps := by
  unfold Obligations.InvCipherIsItsSingleSteps
  exact engineIsScript_of_steps .invCipher (fun s => by rw [engineSteps, map_overRounds]; rfl)
    fun s => by rw [engineSteps, map_overRounds]; rfl

/-- Settles O37: the same of `EqInvCipher`. -/
theorem eqInvCipherIsItsSingleSteps : Obligations.EqInvCipherIsItsSingleSteps := by
  unfold Obligations.EqInvCipherIsItsSingleSteps
  exact engineIsScript_of_steps .eqInvCipher (fun s => by rw [engineSteps, map_overRounds]; rfl)
    fun s => by rw [engineSteps, map_overRounds]; rfl

/-! ### How many records (44_cipher_engines R198) -/

theorem exists_engineInstr_of_mem {i : Instr} (h : i ∈ [Instr.cipher, .invCipher, .eqInvCipher]) :
    ∃ e, i = engineInstr e := by
  simp only [List.mem_cons, List.not_mem_nil, or_false] at h
  rcases h with rfl | rfl | rfl
  · exact ⟨.cipher, rfl⟩
  · exact ⟨.invCipher, rfl⟩
  · exact ⟨.eqInvCipher, rfl⟩

theorem exists_numRounds_of_keyedForm {s : State} (h : KeyedForm s) : ∃ ks : KeySize, s.numRounds = ks.nr := by
  obtain ⟨ks, -, -, hnr, -, -⟩ := h
  exact ⟨ks, hnr⟩

/-- Settles O40: an engine's run has one record for each of its `4*NR` steps, the last with the block it leaves. -/
theorem cipherCommandsEmitAllRounds : Obligations.CipherCommandsEmitAllRounds := by
  unfold Obligations.CipherCommandsEmitAllRounds
  intro i hi s hlegal hbo hk htrace
  obtain ⟨e, rfl⟩ := exists_engineInstr_of_mem hi
  obtain ⟨ks, hks⟩ := exists_numRounds_of_keyedForm (hlegal.keyed hk)
  obtain ⟨records, last, hlog, hlength, hdata⟩ := runSteps_log_last e (engineSteps_ne_nil s e) s.state
  rw [engineSteps_length s e (hks ▸ ks.nr_pos)] at hlength
  refine ⟨_, records, last, exec_engineInstr hbo hk e, ?_, hlength, ?_, hdata, fun r hr => ?_⟩
  · rw [State.setErr_trace, State.takeRun_trace, if_pos htrace, hlog, List.append_assoc]
  · rw [hlength, hks]
    cases ks <;> decide
  · obtain ⟨a, ha, hround⟩ := runSteps_log_round e (engineSteps s e) s.state r (hlog ▸ hr)
    have hlabel : a.label.1 ≤ s.numRounds := (engineSteps_sound hbo hk e a ha).2
    have hnr := ks.nr_le
    rw [hround, BitVec.toNat_ofNat]
    exact (Nat.mod_le _ _).trans (by omega)

end Sys2Proof.Machine
end

section
/-! PROOFS. The inverse ciphers undo the cipher and agree with each other (44_cipher_engines R193, R197). -/
namespace Sys2Proof.Machine

open Sys2Proof.Claims

/-! ### The engines on blocks -/

/-- One middle round of each engine, on the block alone. -/
def cipherRoundBlock (rk : Nat → Block) (x : Block) (r : Nat) : Block :=
  addRoundKey (mixColumns (shiftRows (subBytes x))) (rk r)

def invCipherRoundBlock (rk : Nat → Block) (x : Block) (r : Nat) : Block :=
  invMixColumns (addRoundKey (invSubBytes (invShiftRows x)) (rk r))

def eqInvCipherRoundBlock (dk : Nat → Block) (x : Block) (r : Nat) : Block :=
  addRoundKey (invMixColumns (invShiftRows (invSubBytes x))) (dk r)

theorem cipher_block (x : Block) (rk : Nat → Block) (nr : Nat) :
    (cipher x rk nr).block =
      addRoundKey (shiftRows (subBytes ((roundsUp nr).foldl (cipherRoundBlock rk) (addRoundKey x (rk 0)))))
        (rk nr) := by
  rw [cipher, runStep_block, runStep_block, runStep_block,
    foldl_block (g := cipherRoundBlock rk) (cipherRound_block rk)]
  rfl

theorem invCipher_block (x : Block) (rk : Nat → Block) (nr : Nat) :
    (invCipher x rk nr).block =
      addRoundKey (invSubBytes (invShiftRows ((roundsDown nr).foldl (invCipherRoundBlock rk) (addRoundKey x (rk nr)))))
        (rk 0) := by
  rw [invCipher, runStep_block, runStep_block, runStep_block,
    foldl_block (g := invCipherRoundBlock rk) (invCipherRound_block rk)]
  rfl

theorem eqInvCipher_block (x : Block) (dk : Nat → Block) (nr : Nat) :
    (eqInvCipher x dk nr).block =
      addRoundKey
        (invShiftRows (invSubBytes ((roundsDown nr).foldl (eqInvCipherRoundBlock dk) (addRoundKey x (dk nr)))))
        (dk 0) := by
  rw [eqInvCipher, runStep_block, runStep_block, runStep_block,
    foldl_block (g := eqInvCipherRoundBlock dk) (eqInvCipherRound_block dk)]
  rfl

/-! ### InvCipher undoes Cipher (44_cipher_engines R193) -/

theorem invSubBytes_invShiftRows_cancel (x : Block) : invSubBytes (invShiftRows (shiftRows (subBytes x))) = x := by
  rw [invShiftRows_shiftRows, invSubBytes_subBytes]

/-- An inverse round on the first half of the round after it takes off the round before and leaves its first half. -/
theorem invCipherRoundBlock_cancel (rk : Nat → Block) (x : Block) (r : Nat) :
    invCipherRoundBlock rk (shiftRows (subBytes (cipherRoundBlock rk x r))) r = shiftRows (subBytes x) := by
  rw [invCipherRoundBlock, invSubBytes_invShiftRows_cancel, cipherRoundBlock, addRoundKey_cancel,
    invMixColumns_mixColumns]

/-- The inverse rounds in reverse order take off all the rounds. -/
theorem foldl_reverse_cancel (rk : Nat → Block) (rounds : List Nat) (x : Block) :
    rounds.reverse.foldl (invCipherRoundBlock rk) (shiftRows (subBytes (rounds.foldl (cipherRoundBlock rk) x))) =
      shiftRows (subBytes x) := by
  induction rounds generalizing x with
  | nil => rfl
  | cons r rounds ih =>
    rw [List.reverse_cons, List.foldl_append, List.foldl_cons, List.foldl_nil, List.foldl_cons, ih]
    exact invCipherRoundBlock_cancel rk x r

theorem invCipher_cipher_block (x : Block) (rk : Nat → Block) (nr : Nat) :
    (invCipher (cipher x rk nr).block rk nr).block = x := by
  rw [invCipher_block, cipher_block, addRoundKey_cancel, roundsDown, foldl_reverse_cancel,
    invSubBytes_invShiftRows_cancel, addRoundKey_cancel]

/-! ### EqInvCipher is InvCipher (44_cipher_engines R197) -/

/-- `dk` is the equivalent-inverse schedule of `rk` (43_key_schedule R175). -/
structure EqInvKeys (rk dk : Nat → Block) (nr : Nat) : Prop where
  first : dk 0 = rk 0
  last : dk nr = rk nr
  middle : ∀ r, 1 ≤ r → r < nr → dk r = invMixColumns (rk r)

/-- The two rounds do the same, since InvMixColumns respects addition. -/
theorem eqInvCipherRoundBlock_eq {rk dk : Nat → Block} {r : Nat} (h : dk r = invMixColumns (rk r)) (x : Block) :
    eqInvCipherRoundBlock dk x r = invCipherRoundBlock rk x r := by
  rw [eqInvCipherRoundBlock, invCipherRoundBlock, invMixColumns_addRoundKey, invSubBytes_invShiftRows, h]

theorem eqInvCipher_block_eq {rk dk : Nat → Block} {nr : Nat} (h : EqInvKeys rk dk nr) (x : Block) :
    (eqInvCipher x dk nr).block = (invCipher x rk nr).block := by
  have hrounds (y : Block) : (roundsDown nr).foldl (eqInvCipherRoundBlock dk) y =
      (roundsDown nr).foldl (invCipherRoundBlock rk) y := by
    refine List.foldl_ext _ _ _ fun x r hr => ?_
    obtain ⟨h1, h2⟩ := mem_roundsDown.1 hr
    exact eqInvCipherRoundBlock_eq (h.middle r h1 (by omega)) x
  rw [eqInvCipher_block, invCipher_block, h.first, h.last, hrounds, invSubBytes_invShiftRows]

theorem eqInvKeys_of_keyedForm {s : State} (h : KeyedForm s) : EqInvKeys s.roundKeyFwd s.roundKeyEqi s.numRounds := by
  have hends (r : Nat) (hr : r = 0 ∨ r = s.numRounds) : s.roundKeyEqi r = s.roundKeyFwd r :=
    roundKeyEqi_eq_roundKeyFwd h hr
  obtain ⟨ks, k, -, hnr, hw, hdw⟩ := h
  refine ⟨hends 0 (.inl rfl), hends _ (.inr rfl), fun r h1 hr => ?_⟩
  rw [State.roundKeyEqi, State.roundKeyFwd, hw, hdw]
  exact roundKeyOf_eqInvSchedule_of_middle ks k r h1 (hnr ▸ hr)

/-- Settles O39: DW holds the equivalent-inverse schedule of W. -/
theorem inverseCiphersAgree : Obligations.InverseCiphersAgree := by
  unfold Obligations.InverseCiphersAgree
  intro s hlegal hbo hk
  refine ⟨_, _, exec_invCipher_of_keyed hbo hk, exec_eqInvCipher_of_keyed hbo hk, ?_⟩
  rw [State.setErr_state, State.setErr_state, State.takeRun_state, State.takeRun_state,
    eqInvCipher_block_eq (eqInvKeys_of_keyedForm (hlegal.keyed hk))]

/-! ### LOAD_KEY, CIPHER and either inverse (44_cipher_engines R193) -/

theorem takeRun_setErr_keys (s : State) (run : EngineRun) (e : ErrCode) :
    ((s.takeRun run).setErr e).roundKeyFwd = s.roundKeyFwd ∧ ((s.takeRun run).setErr e).roundKeyEqi = s.roundKeyEqi ∧
      ((s.takeRun run).setErr e).numRounds = s.numRounds := ⟨rfl, rfl, rfl⟩

theorem setErr_keyedForm {s : State} (h : KeyedForm s) (e : ErrCode) : KeyedForm (s.setErr e) := h

/-- CIPHER and then either inverse cipher, in a keyed state whose schedules are those of a key. -/
theorem exec_cipher_then_inverse {s : State} (h : KeyedForm s) (hk : s.status.keyed = true) (hbo : s.ctrl.bo = false) :
    ∃ enciphered dec eqDec, exec .cipher s = .next enciphered ∧
      exec .invCipher enciphered = .next dec ∧ dec.state = s.state ∧
      exec .eqInvCipher enciphered = .next eqDec ∧ eqDec.state = s.state := by
  have hround := invCipher_cipher_block s.state s.roundKeyFwd s.numRounds
  obtain ⟨hfwd, heqi, hnr⟩ := takeRun_setErr_keys s (cipher s.state s.roundKeyFwd s.numRounds) .ok
  refine ⟨_, _, _, exec_cipher_of_keyed hbo hk, exec_invCipher_of_keyed hbo hk, ?_,
    exec_eqInvCipher_of_keyed hbo hk, ?_⟩
  · rw [State.setErr_state, State.takeRun_state, hfwd, hnr]
    exact hround
  · rw [State.setErr_state, State.takeRun_state, heqi, hnr, eqInvCipher_block_eq (eqInvKeys_of_keyedForm h)]
    exact hround

/-- Settles O38: LOAD_KEY leaves a keyed state with the schedules of the key, and the STATE as it was. -/
theorem cipherRoundTrips : Obligations.CipherRoundTrips := by
  unfold Obligations.CipherRoundTrips
  rintro s nk ⟨hbo, hmem, hlen⟩
  obtain ⟨ks, rfl⟩ := exists_keySize_of_mem hmem
  have hload := exec_loadKey_of_keylen ks hbo hlen
  have hform := setErr_keyedForm (installKey_keyedForm s ks (s.keyPrefix (4 * ks.nk) ks.bytes_le)) .ok
  have hkeyed : ((s.installKey ks (s.keyPrefix (4 * ks.nk) ks.bytes_le)).setErr .ok).status.keyed = true := by
    rw [State.setErr_status, State.installKey_status]
  obtain ⟨enciphered, dec, eqDec, hcipher, hinv, hdec, heq, heqDec⟩ := exec_cipher_then_inverse hform hkeyed hbo
  exact ⟨_, enciphered, dec, eqDec, hload, hcipher, hinv, hdec, heq, heqDec⟩

end Sys2Proof.Machine
end

section
/-! PROOFS. The trace: that it is inert, only appended to, and laid out as 44_cipher_engines R199 says (R198 to
R200). -/
namespace Sys2Proof.Machine

open Sys2Proof.Claims

/-! ### Tracing changes the trace alone (44_cipher_engines R200) -/

/-- `s` with TRACE_EN set to `b`. -/
def State.withTraceEn (s : State) (b : Bool) : State := { s with ctrl := { s.ctrl with traceEn := b } }

/-- The outcome with tracing on and the outcome with it off, from the same `s`: next states that differ in TRACE_EN and
the trace only, the trace without tracing being that of `s`. -/
def SameButTrace (s : State) (on off : Result) : Prop :=
  ∃ traced plain : State, on = .next traced ∧ off = .next plain ∧
    traced = { plain with ctrl := { s.ctrl with traceEn := true }, trace := traced.trace } ∧ plain.trace = s.trace

/-- A meaning that tracing does not change but for the trace. -/
def TracingInert (f : State → Result) : Prop :=
  ∀ s : State, SameButTrace s (f (s.withTraceEn true)) (f (s.withTraceEn false))

theorem tracingInert_fail (e : ErrCode) : TracingInert (fail e) := fun _ => ⟨_, _, rfl, rfl, rfl, rfl⟩

/-- The checks read CTRL.BO and STATUS alone. -/
theorem tracingInert_command {body : State → Result} (h : TracingInert body) : TracingInert (command body) := by
  intro s
  cases hbo : s.ctrl.bo with
  | true =>
    rw [command_of_bo (s := s.withTraceEn true) hbo, command_of_bo (s := s.withTraceEn false) hbo]
    exact tracingInert_fail .platform s
  | false =>
    rw [command_of_le (s := s.withTraceEn true) hbo, command_of_le (s := s.withTraceEn false) hbo]
    exact h s

theorem tracingInert_ite {p : State → Prop} [DecidablePred p] {f g : State → Result}
    (hp : ∀ s b, p (s.withTraceEn b) ↔ p s) (hf : TracingInert f) (hg : TracingInert g) :
    TracingInert fun s => if p s then f s else g s := by
  intro s
  simp only [hp]
  by_cases h : p s
  · simpa only [if_pos h] using hf s
  · simpa only [if_neg h] using hg s

theorem tracingInert_keyedCommand {body : State → Result} (h : TracingInert body) : TracingInert (keyedCommand body) :=
  tracingInert_command (tracingInert_ite (fun _ _ => Iff.rfl) h (tracingInert_fail .noKey))

theorem tracingInert_roundCommand {round : Nat} {body : State → Result} (h : TracingInert body) :
    TracingInert (roundCommand round body) :=
  tracingInert_keyedCommand (tracingInert_ite (fun _ _ => Iff.rfl) (tracingInert_fail .operand) h)

theorem tracingInert_execLoadKey : TracingInert execLoadKey := by
  refine tracingInert_command fun s => ?_
  have hlen (b : Bool) : (s.withTraceEn b).ctrl.keylen = s.ctrl.keylen := rfl
  simp only [hlen]
  cases keySizeOfKeylen s.ctrl.keylen with
  | none => exact ⟨_, _, rfl, rfl, rfl, rfl⟩
  | some ks => exact ⟨_, _, rfl, rfl, rfl, rfl⟩

/-- Every command: its checks are inert, and so is what its body writes. -/
theorem tracingInert_exec (i : Instr) : TracingInert (exec i) := by
  cases i with
  | nop | gfAdd | gfXtime | gfMul | sbox | invSbox | subBytes | invSubBytes | shiftRows | invShiftRows | mixColumns
  | invMixColumns | addRk => exact tracingInert_command fun _ => ⟨_, _, rfl, rfl, rfl, rfl⟩
  | addRkFwd | addRkEqi => exact tracingInert_roundCommand fun _ => ⟨_, _, rfl, rfl, rfl, rfl⟩
  | loadKey => exact tracingInert_execLoadKey
  | cipher | invCipher | eqInvCipher => exact tracingInert_keyedCommand fun _ => ⟨_, _, rfl, rfl, rfl, rfl⟩

/-- Settles O42: the lemma above, for every command. -/
theorem tracingIsInert : Obligations.TracingIsInert := by
  unfold Obligations.TracingIsInert
  exact tracingInert_exec

end Sys2Proof.Machine
end

section
/-! PROOFS. The trace stream and its record as bits (44_cipher_engines R198, R199). -/
namespace Sys2Proof.Machine

open Sys2Proof.Claims

/-! ### The trace is only appended to -/

/-- The trace of `u` is that of `s`, or longer by an engine's records when TRACE_EN = 1. -/
def AppendsTrace (i : Instr) (s u : State) : Prop :=
  ∃ records, u.trace = s.trace ++ records ∧
    (records ≠ [] → s.ctrl.traceEn = true ∧ i ∈ [Instr.cipher, .invCipher, .eqInvCipher])

theorem AppendsTrace.of_eq (i : Instr) {s u : State} (h : u.trace = s.trace) : AppendsTrace i s u :=
  ⟨[], by rw [h, List.append_nil], fun hne => absurd rfl hne⟩

theorem AppendsTrace.of_takeRun {i : Instr} (hi : i ∈ [Instr.cipher, .invCipher, .eqInvCipher]) (s : State)
    (run : EngineRun) : AppendsTrace i s (s.takeRun run) := by
  by_cases htrace : s.ctrl.traceEn = true
  · exact ⟨run.log, by rw [State.takeRun_trace, if_pos htrace], fun _ => ⟨htrace, hi⟩⟩
  · exact .of_eq i (by rw [State.takeRun_trace, if_neg htrace])

theorem Instr.Writes.appendsTrace {i : Instr} {s u : State} (h : Instr.Writes i s u) : AppendsTrace i s u := by
  cases i with
  | nop => exact .of_eq _ (h ▸ rfl)
  | gfAdd | gfXtime | gfMul | sbox | invSbox => obtain ⟨r, rfl⟩ := h; exact .of_eq _ rfl
  | subBytes | invSubBytes | shiftRows | invShiftRows | mixColumns | invMixColumns | addRk | addRkFwd | addRkEqi =>
    obtain ⟨x, rfl⟩ := h; exact .of_eq _ rfl
  | loadKey => obtain ⟨keyed, nk, nr, w, dw, rfl⟩ := h; exact .of_eq _ rfl
  | cipher | invCipher | eqInvCipher => obtain ⟨run, rfl⟩ := h; exact .of_takeRun (by simp) s run

theorem exec_appendsTrace {i : Instr} {s t : State} (h : exec i s = .next t) : AppendsTrace i s t := by
  rcases exec_leaves h with ⟨e, rfl⟩ | ⟨u, e, hu, rfl, -⟩
  · exact .of_eq i rfl
  · exact hu.appendsTrace

/-- Settles O41: only a CMD write reaches the trace, and only when its word decodes to a cipher command, of which it is
then the encoding. -/
theorem traceIsAppendOnly : Obligations.TraceIsAppendOnly := by
  unfold Obligations.TraceIsAppendOnly
  intro s t h hreset
  rcases step_reset_or_command_or_kept h with ⟨rest, hp, -⟩ | ⟨v, rest, u, hp, hu, rfl⟩ | kept
  · exact absurd hp (hreset rest)
  · rcases execute_cases hu with ⟨i, hdec, hexec⟩ | ⟨r, -, rfl⟩
    · obtain ⟨records, htrace, hne⟩ := exec_appendsTrace hexec
      exact ⟨records, htrace, fun h =>
        ⟨(hne h).1, rest, i, by rw [hp, encode_of_decode hdec], (hne h).2⟩⟩
    · exact ⟨[], by simp, fun hne => absurd rfl hne⟩
  · exact ⟨[], by rw [kept.trace, List.append_nil], fun hne => absurd rfl hne⟩

/-! ### The record as bits (44_cipher_engines R199) -/

/-- The low byte of a byte pushed in at the bottom. -/
theorem extractLsb'_push_zero (acc : BitVec 128) (b : Byte) :
    ((acc <<< 8) ||| b.setWidth 128).extractLsb' 0 8 = b := by
  ext j hj
  simp [hj]
  omega

/-- Every other byte is the one that was a place below. -/
theorem extractLsb'_push_succ (acc : BitVec 128) (b : Byte) (k : Nat) (hk : 8 * (k + 1) + 8 ≤ 128) :
    ((acc <<< 8) ||| b.setWidth 128).extractLsb' (8 * (k + 1)) 8 = acc.extractLsb' (8 * k) 8 := by
  ext j hj
  have hlt : 8 * (k + 1) + j < 128 := by omega
  have hge : ¬ 8 * (k + 1) + j < 8 := by omega
  have hsub : 8 * (k + 1) + j - 8 = 8 * k + j := by omega
  have hbyte : b.getLsbD (8 * (k + 1) + j) = false := BitVec.getLsbD_of_ge _ _ (by omega)
  simp only [BitVec.getElem_extractLsb', BitVec.getLsbD_or, BitVec.getLsbD_shiftLeft, BitVec.getLsbD_setWidth, hlt, hge,
    hsub, hbyte, decide_true, decide_false, Bool.not_false, Bool.true_and, Bool.and_false, Bool.or_false]

/-- Bytes packed with the first at the bottom, each 8 bits above the one before it: the loop of `dataBits`. -/
theorem extractLsb'_foldr_bytes (f : Nat → Byte) (n a k : Nat) (hk : k < n) (hn : 8 * n ≤ 128) :
    ((List.range' a n).foldr (fun k (acc : BitVec 128) => (acc <<< 8) ||| (f k).setWidth 128) 0#128).extractLsb'
      (8 * k) 8 = f (a + k) := by
  induction n generalizing a k with
  | zero => omega
  | succ n ih =>
    rw [List.range'_succ, List.foldr_cons]
    cases k with
    | zero => exact extractLsb'_push_zero _ _
    | succ k =>
      rw [extractLsb'_push_succ _ _ _ (by omega), ih (a + 1) k (by omega) (by omega), Nat.add_right_comm, Nat.add_assoc]

theorem dataBits_extractLsb' (x : Block) (k : Nat) (hk : k < 16) : (dataBits x).extractLsb' (8 * k) 8 = x[k] := by
  have hbyte : x.getD k 0 = x[k] := by simp [Vector.getD, hk]
  rw [← hbyte, dataBits, List.range_eq_range', extractLsb'_foldr_bytes (fun k => x.getD k 0) 16 0 k hk le_rfl,
    Nat.zero_add]

theorem bits_data (r : TraceRecord) (k : Nat) (hk : k < 16) : r.bits.extractLsb' (8 * k) 8 = r.data[k] := by
  rw [TraceRecord.bits, BitVec.extractLsb'_append_eq_of_add_le (by omega), dataBits_extractLsb' _ _ hk]

/-- A field of the record above DATA is one of TAG. -/
theorem bits_tag (r : TraceRecord) (start len : Nat) :
    r.bits.extractLsb' (128 + start) len = r.tag.extractLsb' start len := by
  rw [TraceRecord.bits, BitVec.extractLsb'_append_eq_of_le (by omega), Nat.add_sub_cancel_left]

/-- TAG's fields from the bottom up, each below the next (44_cipher_engines R199). -/
theorem tag_fields (r : TraceRecord) :
    r.tag.extractLsb' 0 4 = r.round ∧ r.tag.extractLsb' 4 3 = r.step.code ∧ r.tag.extractLsb' 7 1 = 0#1 ∧
      r.tag.extractLsb' 8 2 = r.engine.code ∧ r.tag.extractLsb' 10 6 = 0#6 := by
  unfold TraceRecord.tag
  refine ⟨BitVec.extractLsb'_append_eq_right, ?_, ?_, ?_, ?_⟩
  · rw [BitVec.extractLsb'_append_eq_of_le (by decide)]
    exact BitVec.extractLsb'_append_eq_right
  · rw [BitVec.extractLsb'_append_eq_of_le (by decide), BitVec.extractLsb'_append_eq_of_le (by decide)]
    exact BitVec.extractLsb'_append_eq_right
  · rw [BitVec.extractLsb'_append_eq_of_le (by decide), BitVec.extractLsb'_append_eq_of_le (by decide),
      BitVec.extractLsb'_append_eq_of_le (by decide)]
    exact BitVec.extractLsb'_append_eq_right
  · rw [BitVec.extractLsb'_append_eq_of_le (by decide), BitVec.extractLsb'_append_eq_of_le (by decide),
      BitVec.extractLsb'_append_eq_of_le (by decide), BitVec.extractLsb'_append_eq_of_le (by decide)]
    exact BitVec.extractLsb'_eq_self

/-- Settles O43: DATA byte by byte, and TAG's fields 128 bits up. -/
theorem traceRecordLayout : Obligations.TraceRecordLayout := by
  unfold Obligations.TraceRecordLayout
  refine ⟨fun r => ?_, rfl, rfl⟩
  obtain ⟨hround, hstep, hzero, hengine, hreserved⟩ := tag_fields r
  exact ⟨bits_data r, (bits_tag r 0 4).trans hround, (bits_tag r 4 3).trans hstep, (bits_tag r 7 1).trans hzero,
    (bits_tag r 8 2).trans hengine, (bits_tag r 10 6).trans hreserved⟩

end Sys2Proof.Machine
end

section
/-! PROOFS. The register window byte by byte: where each register reads, and which bytes an update leaves
(20_memory R61, R66, R67). -/
namespace Sys2Proof.Machine

open Sys2Proof.Claims

/-! ### The bytes of the register words (10_state R32, R37, R41, R42) -/

theorem readByte_ctrl (s : State) {o : Nat} (h : o < 0x004) : readByte s o = laneOf s.ctrl.word o := by
  simp only [readByte, if_pos h]

theorem readByte_cmd (s : State) (j : Nat) (h : j < 4) : readByte s (0x004 + j) = 0x00#8 := by
  simp only [readByte]
  rw [if_neg (by omega), if_neg (by omega), if_neg (by omega), if_neg (by omega), dif_neg (by omega),
    dif_neg (by omega), dif_neg (by omega), if_neg (by omega), if_neg (by omega)]

theorem readByte_gfop (s : State) (j : Nat) (h : j < 4) : readByte s (0x010 + j) = laneOf s.gfop.word j := by
  simp only [readByte]
  rw [if_neg (by omega), if_neg (by omega), if_pos (by omega), Nat.add_sub_cancel_left]

theorem readByte_gfres (s : State) (j : Nat) (h : j < 4) : readByte s (0x014 + j) = laneOf (gfresWord s.gfres) j := by
  simp only [readByte]
  rw [if_neg (by omega), if_neg (by omega), if_neg (by omega), if_pos (by omega), Nat.add_sub_cancel_left]

/-- The upper of two parts of a word counts from the lower part's width up. -/
theorem toNat_append_eq_add {m n : Nat} (x : BitVec m) (y : BitVec n) : (x ++ y).toNat = 2 ^ n * x.toNat + y.toNat := by
  rw [BitVec.toNat_append, ← Nat.shiftLeft_add_eq_or_of_lt y.isLt, Nat.shiftLeft_eq, Nat.mul_comm]

theorem laneOf_toNat (v : BusWord) (j : Nat) : (laneOf v j).toNat = v.toNat / 2 ^ (8 * j) % 256 := by
  rw [laneOf, BitVec.extractLsb'_toNat, Nat.shiftRight_eq_div_pow]

theorem ctrl_word_toNat (c : Ctrl) : c.word.toNat = c.traceEn.toNat + 2 * c.bo.toNat + 2 ^ 8 * c.keylen.toNat := by
  simp only [Ctrl.word, toNat_append_eq_add, BitVec.toNat_ofBool, BitVec.toNat_ofNat]
  omega

theorem status_word_toNat (t : Status) :
    t.word.toNat = t.err.code.toNat + 2 ^ 8 * t.keyed.toNat + 2 ^ 16 * t.nk.toNat + 2 ^ 24 * t.nr.toNat := by
  simp only [Status.word, toNat_append_eq_add, BitVec.toNat_ofBool, BitVec.toNat_ofNat]
  omega

theorem gfop_word_toNat (g : Gfop) : g.word.toNat = g.a.toNat + 2 ^ 8 * g.b.toNat := by
  simp only [Gfop.word, toNat_append_eq_add, BitVec.toNat_ofNat]
  omega

theorem gfresWord_toNat (r : Byte) : (gfresWord r).toNat = r.toNat := by
  simp only [gfresWord, toNat_append_eq_add, BitVec.toNat_ofNat]
  omega

/-- CTRL's bytes: TRACE_EN and BO, KEYLEN, and two reserved ones. -/
theorem laneOf_ctrl_word (c : Ctrl) :
    (laneOf c.word 0).toNat = c.traceEn.toNat + 2 * c.bo.toNat ∧ laneOf c.word 1 = c.keylen ∧
      laneOf c.word 2 = 0x00#8 ∧ laneOf c.word 3 = 0x00#8 := by
  have htrace := c.traceEn.toNat_le
  have hbo := c.bo.toNat_le
  have hkeylen := c.keylen.isLt
  simp only [BitVec.toNat_eq, laneOf_toNat, ctrl_word_toNat, BitVec.toNat_ofNat]
  omega

/-- GFOP's bytes: A, B, and two reserved ones. -/
theorem laneOf_gfop_word (g : Gfop) :
    laneOf g.word 0 = g.a ∧ laneOf g.word 1 = g.b ∧ laneOf g.word 2 = 0x00#8 ∧ laneOf g.word 3 = 0x00#8 := by
  have ha := g.a.isLt
  have hb := g.b.isLt
  simp only [BitVec.toNat_eq, laneOf_toNat, gfop_word_toNat, BitVec.toNat_ofNat]
  omega

/-- ERR lies in the lowest byte of STATUS. -/
theorem laneOf_status_word_err (t : Status) (e : ErrCode) (j : Nat) (hj : 1 ≤ j) :
    laneOf ({ t with err := e } : Status).word j = laneOf t.word j := by
  simp only [laneOf, Status.word]
  rw [BitVec.extractLsb'_append_eq_of_le (xlo := e.code) (by omega),
    BitVec.extractLsb'_append_eq_of_le (xlo := t.err.code) (by omega)]

/-- R lies in the lowest byte of GFRES. -/
theorem laneOf_gfresWord (r r' : Byte) (j : Nat) (hj : 1 ≤ j) : laneOf (gfresWord r) j = laneOf (gfresWord r') j := by
  simp only [laneOf, gfresWord]
  rw [BitVec.extractLsb'_append_eq_of_le (xlo := r) (by omega),
    BitVec.extractLsb'_append_eq_of_le (xlo := r') (by omega)]

/-! ### Which bytes an update of a register leaves -/

theorem readByte_withCtrl (s : State) (c : Ctrl) {o : Nat} (h : ¬ o < 0x004) :
    readByte { s with ctrl := c } o = readByte s o := by
  simp only [readByte, if_neg h]

theorem readByte_withGfop (s : State) (g : Gfop) {o : Nat} (h : ¬ (0x010 ≤ o ∧ o < 0x014)) :
    readByte { s with gfop := g } o = readByte s o := by
  simp only [readByte, if_neg h]

theorem readByte_setState (s : State) (x : Block) {o : Nat} (h : ¬ (0x020 ≤ o ∧ o < 0x030)) :
    readByte (s.setState x) o = readByte s o := by
  simp only [readByte, State.setState, dif_neg h]

theorem readByte_withRkin (s : State) (x : Block) {o : Nat} (h : ¬ (0x030 ≤ o ∧ o < 0x040)) :
    readByte { s with rkin := x } o = readByte s o := by
  simp only [readByte, dif_neg h]

theorem readByte_withKey (s : State) (x : Bytes 32) {o : Nat} (h : ¬ (0x040 ≤ o ∧ o < 0x060)) :
    readByte { s with key := x } o = readByte s o := by
  simp only [readByte, dif_neg h]

theorem readByte_setErr (s : State) (e : ErrCode) {o : Nat} (h : o ≠ 0x008) :
    readByte (s.setErr e) o = readByte s o := by
  by_cases hstatus : 0x008 ≤ o ∧ o < 0x00C
  · obtain ⟨j, rfl⟩ := Nat.exists_eq_add_of_le hstatus.1
    rw [readByte_status _ _ (by omega), readByte_status _ _ (by omega), State.setErr_status,
      laneOf_status_word_err _ _ _ (by omega)]
  · simp only [readByte, State.setErr, if_neg hstatus]

theorem readByte_setR (s : State) (r : Byte) {o : Nat} (h : o ≠ 0x014) : readByte (s.setR r) o = readByte s o := by
  by_cases hgfres : 0x014 ≤ o ∧ o < 0x018
  · obtain ⟨j, rfl⟩ := Nat.exists_eq_add_of_le hgfres.1
    rw [readByte_gfres _ _ (by omega), readByte_gfres _ _ (by omega), laneOf_gfresWord _ s.gfres _ (by omega)]
  · simp only [readByte, State.setR, if_neg hgfres]

theorem readByte_setSchedules (s : State) (keyed : Bool) (nk nr : BitVec 4) (w dw : Memory) {o : Nat}
    (hstatus : ¬ (0x008 ≤ o ∧ o < 0x00C)) (hw : ¬ (0x100 ≤ o ∧ o < 0x1F0)) (hdw : ¬ (0x200 ≤ o ∧ o < 0x2F0)) :
    readByte (s.setSchedules keyed nk nr w dw) o = readByte s o := by
  simp only [readByte, State.setSchedules, if_neg hstatus, if_neg hw, if_neg hdw]

/-- The trace has no byte in the window. -/
theorem readByte_takeRun (s : State) (run : EngineRun) (o : Nat) :
    readByte (s.takeRun run) o = readByte (s.setState run.block) o :=
  readByte_congr rfl rfl rfl rfl rfl rfl rfl rfl rfl o

end Sys2Proof.Machine
end

section
/-! PROOFS. The frames of the commands (30_encoding R92, 60_exceptions R231). -/
namespace Sys2Proof.Machine

open Sys2Proof.Claims

theorem writes_gf {i : Instr} (hi : i ∈ [Instr.nop, .gfAdd, .gfXtime, .gfMul, .sbox, .invSbox]) {s u : State}
    (h : Instr.Writes i s u) : ∃ r, u = s.setR r ∧ (i = .nop → r = s.gfres) := by
  simp only [List.mem_cons, List.not_mem_nil, or_false] at hi
  rcases hi with rfl | rfl | rfl | rfl | rfl | rfl
  · exact ⟨s.gfres, h, fun _ => rfl⟩
  all_goals
    obtain ⟨r, rfl⟩ := h
    exact ⟨r, rfl, nofun⟩

/-- Settles O44: ERR alone is set, or R and an ERR of OK, and those lie in the bytes 0x008 and 0x014. -/
theorem gfCommandsFrame : Obligations.GfCommandsFrame := by
  unfold Obligations.GfCommandsFrame
  intro i hi s t h
  rcases exec_leaves h with ⟨e, rfl⟩ | ⟨u, e, hu, rfl, herr⟩
  · exact ⟨rfl, fun _ => rfl, fun o h8 _ => readByte_setErr s e h8⟩
  · obtain ⟨r, rfl, hnop⟩ := writes_gf hi hu
    have hload : i ≠ .loadKey := by rintro rfl; simp at hi
    refine ⟨rfl, ?_, fun o h8 h14 => ?_⟩
    · rintro (rfl | hne)
      · exact hnop rfl
      · exact absurd (herr hload) hne
    · rw [readByte_setErr _ _ h8, readByte_setR _ _ h14]

/-- What the commands that work on STATE write: STATE, and the trace where they are the cipher commands. -/
theorem writes_state {i : Instr} {n : Nat} (hi : i ∈ [Instr.subBytes, .invSubBytes, .shiftRows, .invShiftRows,
    .mixColumns, .invMixColumns, .addRk, .addRkFwd n, .addRkEqi n, .cipher, .invCipher, .eqInvCipher]) {s u : State}
    (h : Instr.Writes i s u) :
    u = { s with state := u.state, trace := u.trace } ∧
      (i ∉ [Instr.cipher, .invCipher, .eqInvCipher] → u.trace = s.trace) ∧
      ∀ o, readByte u o = readByte (s.setState u.state) o := by
  simp only [List.mem_cons, List.not_mem_nil, or_false] at hi
  rcases hi with rfl | rfl | rfl | rfl | rfl | rfl | rfl | rfl | rfl | rfl | rfl | rfl
  iterate 9
    · obtain ⟨x, rfl⟩ := h
      exact ⟨rfl, fun _ => rfl, fun _ => rfl⟩
  all_goals
    obtain ⟨run, rfl⟩ := h
    exact ⟨rfl, fun hni => absurd (by simp) hni, readByte_takeRun s run⟩

/-- Settles O45: ERR alone is set, or STATE, the trace of a cipher command and an ERR of OK. -/
theorem stateCommandsFrame : Obligations.StateCommandsFrame := by
  unfold Obligations.StateCommandsFrame
  intro n i hi s t h
  rcases exec_leaves h with ⟨e, rfl⟩ | ⟨u, e, hu, rfl, herr⟩
  · exact ⟨rfl, fun _ => ⟨rfl, rfl⟩, fun _ => rfl, fun o h8 _ => readByte_setErr s e h8⟩
  · obtain ⟨hfields, htrace, hread⟩ := writes_state hi hu
    have hload : i ≠ .loadKey := by rintro rfl; simp at hi
    refine ⟨?_, fun hne => absurd (herr hload) hne, htrace, fun o h8 hstate => ?_⟩
    · rw [hfields]; rfl
    · rw [readByte_setErr _ _ h8, hread, readByte_setState _ _ hstate]

/-- Settles O46: ERR alone is set, or the schedules with KEYED, NK and NR, and ERR. -/
theorem loadKeyFrame : Obligations.LoadKeyFrame := by
  unfold Obligations.LoadKeyFrame
  intro s t h
  rcases exec_leaves h with ⟨e, rfl⟩ | ⟨u, e, ⟨keyed, nk, nr, w, dw, rfl⟩, rfl, -⟩
  · exact ⟨rfl, fun o hstatus _ _ => readByte_setErr s e (by omega)⟩
  · refine ⟨rfl, fun o hstatus hw hdw => ?_⟩
    rw [readByte_setErr _ _ (by omega), readByte_setSchedules _ _ _ _ _ _ hstatus hw hdw]

end Sys2Proof.Machine
end

section
/-! PROOFS. Accesses: the map, bus errors, reads and writes lane by lane (20_memory R61 to R70). -/
namespace Sys2Proof.Machine

open Sys2Proof.Claims

/-! ### The map and the checks of an access (20_memory R63, R66) -/

theorem accessFault_eq_none_iff_goodAccess {off n : Nat} : accessFault off n = none ↔ GoodAccess off n := by
  rw [accessFault_eq_none, GoodAccess]
  simp only [List.mem_cons, List.not_mem_nil, or_false]

/-- Every region of the map begins and ends at a multiple of 4, so that an aligned access crosses no boundary. -/
theorem mapped_of_aligned {off n j : Nat} (hn : n ∈ [1, 2, 4]) (ha : off % n = 0) (hj : j < n) :
    mapped (off + j) = mapped off := by
  rw [Bool.eq_iff_iff, mapped_iff, mapped_iff]
  simp only [List.mem_cons, List.not_mem_nil, or_false] at hn
  rcases hn with rfl | rfl | rfl <;> omega

/-- The reason of a failed check, in the order of the checks (20_memory R66, R67; log 4). -/
theorem reasonOfError_of_accessFault {off n : Nat} {r : Fault} (h : accessFault off n = some r) :
    ReasonOfError off n r := by
  unfold accessFault at h
  unfold ReasonOfError
  simp only [List.mem_cons, List.not_mem_nil, or_false, not_or]
  split_ifs at h with hsize halign hmapped
  · rw [if_pos hsize]
    exact .inl (Option.some.inj h).symm
  · rw [if_neg hsize, if_pos halign]
    exact (Option.some.inj h).symm
  · have hunmapped : ∃ j < n, mapped (off + j) = false := by simpa using hmapped
    rw [if_neg hsize, if_neg halign, if_pos hunmapped]
    exact (Option.some.inj h).symm

/-- A sub-word write to CMD passes the checks of R66 and fails that of R69. -/
theorem reasonOfError_subwordCmd {off n : Nat} (h : GoodAccess off n) : ReasonOfError off n .subwordCmd := by
  obtain ⟨hsize, halign, hmapped⟩ := h
  have hall : ¬ ∃ j < n, mapped (off + j) = false := by
    rintro ⟨j, hj, hfalse⟩
    rw [hmapped j hj] at hfalse
    cases hfalse
  rw [ReasonOfError, if_neg (not_not.2 hsize), if_neg (not_not.2 halign), if_neg hall]

theorem busRead_of_fault {off n : Nat} {r : Fault} (h : accessFault off n = some r) (s : State) :
    busRead s off n = .error r := by
  simp only [busRead, h]

theorem busWrite_of_fault {off n : Nat} {r : Fault} (h : accessFault off n = some r) (s : State) (v : BusWord) :
    busWrite s off n v = .fault r := by
  simp only [busWrite, h]

theorem busRead_of_goodAccess {off n : Nat} (h : GoodAccess off n) (s : State) :
    busRead s off n = .ok (readLanes s off n) := by
  simp only [busRead, accessFault_eq_none_iff_goodAccess.2 h]

theorem exists_accessFault_of_not_goodAccess {off n : Nat} (h : ¬ GoodAccess off n) :
    ∃ r, accessFault off n = some r := by
  rw [← Option.ne_none_iff_exists', Ne, accessFault_eq_none_iff_goodAccess]
  exact h

theorem accessFault_eq_unmapped {off n : Nat} (hn : n ∈ [1, 2, 4]) (ha : off % n = 0) (h : ¬ GoodAccess off n) :
    accessFault off n = some .unmapped := by
  obtain ⟨r, hr⟩ := exists_accessFault_of_not_goodAccess h
  have hreason := reasonOfError_of_accessFault hr
  have hunmapped : ∃ j < n, mapped (off + j) = false := by
    by_contra hall
    simp only [not_exists, not_and, Bool.not_eq_false] at hall
    exact h ⟨hn, ha, hall⟩
  rw [ReasonOfError, if_neg (not_not.2 hn), if_neg (not_not.2 ha), if_pos hunmapped] at hreason
  rw [hr, hreason]

/-- Settles O49: the map by its regions, whose boundaries an aligned access does not cross; an unmapped byte fails the
last check at the latest. -/
theorem unmappedOffsetsExactly : Obligations.UnmappedOffsetsExactly := by
  unfold Obligations.UnmappedOffsetsExactly
  refine ⟨fun o ho => ?map, fun off n hn ha => ?aligned, fun s off n v j hj hfalse => ?error⟩
  case map =>
    rw [← Bool.not_eq_true, mapped_iff, UnmappedOffset]
    omega
  case aligned =>
    cases hmapped : mapped off with
    | true => exact .inl fun j hj => (mapped_of_aligned hn ha hj).trans hmapped
    | false => exact .inr fun j hj => (mapped_of_aligned hn ha hj).trans hmapped
  case error =>
    have hbad : ¬ GoodAccess off n := fun hgood => Bool.false_ne_true (hfalse.symm.trans (hgood.2.2 j hj))
    obtain ⟨r, hr⟩ := exists_accessFault_of_not_goodAccess hbad
    refine ⟨⟨r, busRead_of_fault hr s⟩, ⟨r, busWrite_of_fault hr s v⟩, fun hn ha => ?_⟩
    have hunmapped := accessFault_eq_unmapped hn ha hbad
    exact ⟨busRead_of_fault hunmapped s, busWrite_of_fault hunmapped s v⟩

/-! ### What a step on an access does (20_memory R66 to R69) -/

/-- A write that fails gets a reason in the order of the checks. -/
theorem busWrite_of_bad {off n : Nat} (h : ¬ GoodAccess off n ∨ (0x004 ≤ off ∧ off < 0x008 ∧ n ≠ 4)) (s : State)
    (v : BusWord) : ∃ r, ReasonOfError off n r ∧ busWrite s off n v = .fault r := by
  by_cases hgood : GoodAccess off n
  · obtain ⟨hlow, hhigh, hn⟩ := h.resolve_left (not_not.2 hgood)
    refine ⟨.subwordCmd, reasonOfError_subwordCmd hgood, ?_⟩
    simp only [busWrite, accessFault_eq_none_iff_goodAccess.2 hgood, if_pos (And.intro hlow hhigh), if_neg hn]
  · obtain ⟨r, hr⟩ := exists_accessFault_of_not_goodAccess hgood
    exact ⟨r, reasonOfError_of_accessFault hr, busWrite_of_fault hr s v⟩

theorem busWrite_of_not_cmd {off n : Nat} (hgood : GoodAccess off n) (hcmd : ¬ (0x004 ≤ off ∧ off < 0x008)) (s : State)
    (v : BusWord) : busWrite s off n v = .next (writeLanes s off v n) := by
  simp only [busWrite, accessFault_eq_none_iff_goodAccess.2 hgood, if_neg hcmd]

/-- A write that passes its checks completes, and gives no response itself. -/
theorem busWrite_of_good {off n : Nat} (hgood : GoodAccess off n) (h : ¬ (0x004 ≤ off ∧ off < 0x008 ∧ n ≠ 4))
    (s : State) (v : BusWord) : ∃ t, busWrite s off n v = .next t ∧ t.responses = s.responses := by
  by_cases hcmd : 0x004 ≤ off ∧ off < 0x008
  · have hn : n = 4 := by_contra fun hne => h ⟨hcmd.1, hcmd.2, hne⟩
    obtain ⟨t, ht⟩ := execute_answers v s
    refine ⟨t, ?_, (execute_commandKept ht).responses⟩
    simp only [busWrite, accessFault_eq_none_iff_goodAccess.2 hgood, if_pos hcmd, if_pos hn, ht]
  · exact ⟨_, busWrite_of_not_cmd hgood hcmd s v, (writeLanes_kept s off v n).responses⟩

/-- A read does not see the events still to come. -/
theorem busRead_setPending (s : State) (rest : List BusEvent) (off n : Nat) :
    busRead (s.setPending rest) off n = busRead s off n := by
  have hlanes : readLanes (s.setPending rest) off n = readLanes s off n := by
    induction n with
    | zero => rfl
    | succ n ih =>
      rw [readLanes, readLanes, ih,
        readByte_congr (s := s) (t := s.setPending rest) rfl rfl rfl rfl rfl rfl rfl rfl rfl]
  simp only [busRead, hlanes]

/-- Settles O50: a read is answered with what `busRead` gives, and a write is `busWrite` and its answer. -/
theorem busErrorsHaveNoEffect : Obligations.BusErrorsHaveNoEffect := by
  unfold Obligations.BusErrorsHaveNoEffect
  refine fun s off n rest => ⟨fun hp => ⟨fun hbad => ?badRead, fun hgood => ?goodRead⟩,
    fun v hp => ⟨fun hbad => ?badWrite, fun hgood hcmd => ?goodWrite⟩⟩
  case badRead =>
    obtain ⟨r, hr⟩ := exists_accessFault_of_not_goodAccess hbad
    refine ⟨r, reasonOfError_of_accessFault hr, ?_⟩
    rw [step_of_read hp, readResponse, busRead_of_fault hr]
    rfl
  case goodRead =>
    refine ⟨_, busRead_of_goodAccess hgood s, ?_⟩
    rw [step_of_read hp, readResponse, busRead_setPending, busRead_of_goodAccess hgood]
    rfl
  case badWrite =>
    obtain ⟨r, hreason, hw⟩ := busWrite_of_bad hbad (s.setPending rest) v
    exact ⟨r, hreason, step_of_write_error hp hw⟩
  case goodWrite =>
    obtain ⟨t, ht, hresponses⟩ := busWrite_of_good hgood hcmd (s.setPending rest) v
    refine ⟨t, ht, hresponses, ?_⟩
    rw [step_of_write hp ht, State.respond, hresponses]
    rfl

/-! ### Reads lane by lane (20_memory R64, R66) -/

/-- The bits of a value put together from lanes: those of the byte of each lane, and none above the last. -/
theorem readLanes_getLsbD (s : State) (off n i : Nat) (hi : i < 32) :
    (readLanes s off n).getLsbD i = (decide (i < 8 * n) && (readByte s (off + i / 8)).getLsbD (i % 8)) := by
  induction n with
  | zero => simp [readLanes]
  | succ n ih =>
    simp only [readLanes, BitVec.getLsbD_or, ih, BitVec.getLsbD_shiftLeft, BitVec.getLsbD_setWidth]
    by_cases hbelow : i < 8 * n
    · have hnext : i < 8 * (n + 1) := by omega
      simp [hbelow, hnext]
    · by_cases hlane : i < 8 * (n + 1)
      · have hdiv : i / 8 = n := by omega
        have hmod : i % 8 = i - 8 * n := by omega
        simp [hbelow, hlane, hi, hdiv, hmod, show i - 8 * n < 32 by omega]
      · have habove : (readByte s (off + n)).getLsbD (i - 8 * n) = false := BitVec.getLsbD_of_ge _ _ (by omega)
        simp [hbelow, hlane, habove]

theorem laneOf_readLanes (s : State) (off n j : Nat) (hj : j < n) (hn : n ≤ 4) :
    laneOf (readLanes s off n) j = readByte s (off + j) := by
  refine BitVec.eq_of_getLsbD_eq fun k hk => ?_
  have hdiv : (8 * j + k) / 8 = j := by omega
  have hmod : (8 * j + k) % 8 = k := by omega
  have hlt : 8 * j + k < 8 * n := by omega
  rw [laneOf, BitVec.getLsbD_extractLsb', readLanes_getLsbD _ _ _ _ (by omega), hdiv, hmod]
  simp [hk, hlt]

theorem readLanes_toNat_lt (s : State) (off n : Nat) : (readLanes s off n).toNat < 2 ^ (8 * n) := by
  refine Nat.lt_pow_two_of_testBit _ fun i hi => ?_
  rw [BitVec.testBit_toNat]
  by_cases hlt : i < 32
  · rw [readLanes_getLsbD _ _ _ _ hlt, decide_eq_false (by omega), Bool.false_and]
  · exact BitVec.getLsbD_of_ge _ _ (by omega)

/-- Settles O51: the value read is put together from the bytes, lane by lane. -/
theorem readsReturnLittleEndianLanes : Obligations.ReadsReturnLittleEndianLanes := by
  unfold Obligations.ReadsReturnLittleEndianLanes
  intro s off n hgood
  have hn : n ≤ 4 := by
    have hsize := hgood.1
    simp only [List.mem_cons, List.not_mem_nil, or_false] at hsize
    omega
  exact ⟨_, busRead_of_goodAccess hgood s, fun j hj => laneOf_readLanes s off n j hj hn, readLanes_toNat_lt s off n⟩

/-- A 32-bit read of a register whose four bytes are the lanes of `v` gives `v`. -/
theorem busRead_word {s : State} {off : Nat} {v : BusWord} (hgood : GoodAccess off 4)
    (h : ∀ j < 4, readByte s (off + j) = laneOf v j) : busRead s off 4 = .ok v := by
  rw [busRead_of_goodAccess hgood]
  congr 1
  refine BitVec.eq_of_getLsbD_eq fun i hi => ?_
  rw [readLanes_getLsbD _ _ _ _ hi, h _ (by omega), laneOf, BitVec.getLsbD_extractLsb', Nat.div_add_mod]
  simp [hi, Nat.mod_lt]

/-- Settles O53: the four bytes of each register are the lanes of its word, and CMD reads 0. -/
theorem registerWordsRead : Obligations.RegisterWordsRead := by
  unfold Obligations.RegisterWordsRead
  refine ⟨rfl, fun s => ⟨s.ctrl.word, s.status.word, s.gfop.word, gfresWord s.gfres, ?_, ctrl_word_toNat _, ?_, ?_,
    status_word_toNat _, ?_, gfop_word_toNat _, ?_, gfresWord_toNat _⟩⟩
  · exact busRead_word (by decide) fun j hj => by rw [Nat.zero_add]; exact readByte_ctrl s hj
  · refine busRead_word (by decide) fun j hj => (readByte_cmd s j hj).trans ?_
    simp [laneOf]
  · exact busRead_word (by decide) fun j hj => readByte_status s j hj
  · exact busRead_word (by decide) fun j hj => readByte_gfop s j hj
  · exact busRead_word (by decide) fun j hj => readByte_gfres s j hj

/-- Settles O54: the laws of the regions. -/
theorem byteArraysInTheWindow : Obligations.ByteArraysInTheWindow := by
  unfold Obligations.ByteArraysInTheWindow
  exact fun s => ⟨fun k hk => ⟨readByte_state s k hk, readByte_rkin s k hk⟩, readByte_key s,
    fun j hj => ⟨readByte_w s j hj, readByte_dw s j hj⟩⟩

/-! ### Writes byte by byte (20_memory R67, R70) -/

section RegisterBytes

variable (s : State) (b : Byte) (o' : Nat)

/-- "CTRL byte 0 keeps only b[1:0]" (20_memory R67). -/
theorem toNat_and_three : ∀ b : Byte, (b &&& 0x03#8).toNat = (b.getLsbD 0).toNat + 2 * (b.getLsbD 1).toNat := by decide

theorem readByte_writeByte0 :
    readByte { s with ctrl := s.ctrl.writeByte0 b } o' = if o' = 0x000 then b &&& 0x03#8 else readByte s o' := by
  by_cases ho : o' < 0x004
  · obtain ⟨h0, h1, h2, h3⟩ := laneOf_ctrl_word s.ctrl
    obtain ⟨w0, w1, w2, w3⟩ := laneOf_ctrl_word (s.ctrl.writeByte0 b)
    rw [readByte_ctrl _ ho, readByte_ctrl _ ho]
    interval_cases o'
    · exact BitVec.eq_of_toNat_eq (w0.trans (toNat_and_three b).symm)
    · exact w1.trans h1.symm
    · exact w2.trans h2.symm
    · exact w3.trans h3.symm
  · rw [readByte_withCtrl _ _ ho, if_neg (by omega)]

theorem readByte_writeByte1 :
    readByte { s with ctrl := s.ctrl.writeByte1 b } o' = if o' = 0x001 then b else readByte s o' := by
  by_cases ho : o' < 0x004
  · obtain ⟨h0, h1, h2, h3⟩ := laneOf_ctrl_word s.ctrl
    obtain ⟨w0, w1, w2, w3⟩ := laneOf_ctrl_word (s.ctrl.writeByte1 b)
    rw [readByte_ctrl _ ho, readByte_ctrl _ ho]
    interval_cases o'
    · exact BitVec.eq_of_toNat_eq (w0.trans h0.symm)
    · exact w1
    · exact w2.trans h2.symm
    · exact w3.trans h3.symm
  · rw [readByte_withCtrl _ _ ho, if_neg (by omega)]

theorem readByte_writeGfopA :
    readByte { s with gfop := { s.gfop with a := b } } o' = if o' = 0x010 then b else readByte s o' := by
  by_cases ho : 0x010 ≤ o' ∧ o' < 0x014
  · obtain ⟨-, h1, h2, h3⟩ := laneOf_gfop_word s.gfop
    obtain ⟨w0, w1, w2, w3⟩ := laneOf_gfop_word { s.gfop with a := b }
    obtain ⟨j, rfl⟩ := Nat.exists_eq_add_of_le ho.1
    have hj : j < 4 := by omega
    rw [readByte_gfop _ _ hj, readByte_gfop _ _ hj]
    interval_cases j
    · exact w0
    · exact w1.trans h1.symm
    · exact w2.trans h2.symm
    · exact w3.trans h3.symm
  · rw [readByte_withGfop _ _ ho, if_neg (by omega)]

theorem readByte_writeGfopB :
    readByte { s with gfop := { s.gfop with b := b } } o' = if o' = 0x011 then b else readByte s o' := by
  by_cases ho : 0x010 ≤ o' ∧ o' < 0x014
  · obtain ⟨h0, -, h2, h3⟩ := laneOf_gfop_word s.gfop
    obtain ⟨w0, w1, w2, w3⟩ := laneOf_gfop_word { s.gfop with b := b }
    obtain ⟨j, rfl⟩ := Nat.exists_eq_add_of_le ho.1
    have hj : j < 4 := by omega
    rw [readByte_gfop _ _ hj, readByte_gfop _ _ hj]
    interval_cases j
    · exact w0.trans h0.symm
    · exact w1
    · exact w2.trans h2.symm
    · exact w3.trans h3.symm
  · rw [readByte_withGfop _ _ ho, if_neg (by omega)]

theorem readByte_setState_set (k : Nat) (hk : k < 16) :
    readByte { s with state := s.state.set k b } o' = if o' = 0x020 + k then b else readByte s o' := by
  by_cases ho : 0x020 ≤ o' ∧ o' < 0x030
  · obtain ⟨j, rfl⟩ := Nat.exists_eq_add_of_le ho.1
    rw [readByte_state _ _ (by omega), readByte_state _ _ (by omega), Vector.getElem_set]
    simp only [Nat.add_left_cancel_iff, eq_comm]
  · exact (readByte_setState s _ ho).trans (if_neg (by omega)).symm

theorem readByte_setRkin_set (k : Nat) (hk : k < 16) :
    readByte { s with rkin := s.rkin.set k b } o' = if o' = 0x030 + k then b else readByte s o' := by
  by_cases ho : 0x030 ≤ o' ∧ o' < 0x040
  · obtain ⟨j, rfl⟩ := Nat.exists_eq_add_of_le ho.1
    rw [readByte_rkin _ _ (by omega), readByte_rkin _ _ (by omega), Vector.getElem_set]
    simp only [Nat.add_left_cancel_iff, eq_comm]
  · exact (readByte_withRkin s _ ho).trans (if_neg (by omega)).symm

theorem readByte_setKey_set (k : Nat) (hk : k < 32) :
    readByte { s with key := s.key.set k b } o' = if o' = 0x040 + k then b else readByte s o' := by
  by_cases ho : 0x040 ≤ o' ∧ o' < 0x060
  · obtain ⟨j, rfl⟩ := Nat.exists_eq_add_of_le ho.1
    rw [readByte_key _ _ (by omega), readByte_key _ _ (by omega), Vector.getElem_set]
    simp only [Nat.add_left_cancel_iff, eq_comm]
  · exact (readByte_withKey s _ ho).trans (if_neg (by omega)).symm

end RegisterBytes

theorem byteAfterWrite_of_array {o : Nat} (h : 0x020 ≤ o ∧ o < 0x060) (b old : Byte) : byteAfterWrite o b old = b := by
  rw [byteAfterWrite, if_neg (by omega), if_pos (by omega)]

theorem byteAfterWrite_of_not_writable {o : Nat} (h : ¬ Writable o) (b old : Byte) : byteAfterWrite o b old = old := by
  unfold Writable at h
  rw [byteAfterWrite, if_neg (by omega), if_neg (by omega)]

/-- A byte write sets the byte at its offset, by the access class of the offset, and no other. -/
theorem readByte_writeByte (s : State) (o : Nat) (b : Byte) (o' : Nat) :
    readByte (writeByte s o b) o' = if o' = o then byteAfterWrite o b (readByte s o) else readByte s o' := by
  by_cases hw : Writable o
  · rcases hw with rfl | rfl | rfl | rfl | harray
    · exact readByte_writeByte0 s b o'
    · exact readByte_writeByte1 s b o'
    · exact readByte_writeGfopA s b o'
    · exact readByte_writeGfopB s b o'
    · rw [byteAfterWrite_of_array harray]
      by_cases hstate : o < 0x030
      · rw [writeByte_state s o b ⟨harray.1, hstate⟩, readByte_setState_set, Nat.add_sub_cancel' harray.1]
      by_cases hrkin : o < 0x040
      · rw [writeByte_rkin s o b ⟨by omega, hrkin⟩, readByte_setRkin_set, Nat.add_sub_cancel' (by omega)]
      · rw [writeByte_key s o b ⟨by omega, harray.2⟩, readByte_setKey_set, Nat.add_sub_cancel' (by omega)]
  · rw [writeByte_ignored s o b hw, byteAfterWrite_of_not_writable hw]
    split
    next ho => rw [ho]
    next => rfl

/-- Each offset of the access gets its own lane, and no offset two. -/
theorem readByte_writeLanes (s : State) (off : Nat) (v : BusWord) (n o : Nat) :
    readByte (writeLanes s off v n) o =
      if off ≤ o ∧ o < off + n then byteAfterWrite o (laneOf v (o - off)) (readByte s o) else readByte s o := by
  induction n with
  | zero => rw [writeLanes, if_neg (by omega)]
  | succ n ih =>
    rw [writeLanes, readByte_writeByte]
    by_cases ho : o = off + n
    · subst ho
      rw [if_pos rfl, if_pos (by omega), ih, if_neg (by omega), Nat.add_sub_cancel_left]
    · rw [if_neg ho, ih]
      simp only [show (off ≤ o ∧ o < off + n) ↔ (off ≤ o ∧ o < off + (n + 1)) by omega]

/-- Settles O52: the lanes written, each at its own offset. -/
theorem writesSetExactlyTheirBytes : Obligations.WritesSetExactlyTheirBytes := by
  unfold Obligations.WritesSetExactlyTheirBytes
  intro s off n v hgood hcmd
  refine ⟨_, busWrite_of_not_cmd hgood hcmd s v, fun j hj => ?_, fun o ho => ?_⟩
  · rw [readByte_writeLanes, if_pos (by omega), Nat.add_sub_cancel_left, laneOf]
  · rw [readByte_writeLanes, if_neg ho]

/-! ### Host addresses (20_memory R60; log 6) -/

theorem hostOffset_base_add (off : BitVec 12) : hostOffset (Config.base + off.toNat) = some off := by
  have hlt := off.isLt
  rw [hostOffset, if_pos (by omega), Nat.add_sub_cancel_left, BitVec.ofNat_toNat, BitVec.setWidth_eq]

theorem hostOffset_outside {addr : Nat} (h : addr < Config.base ∨ Config.base + 4096 ≤ addr) :
    hostOffset addr = none := by
  rw [hostOffset, if_neg (by omega)]

/-- Settles O55: BASE is 4096 times a page, and an address has an offset exactly inside the window. -/
theorem hostAddressesReachTheWindow : Obligations.HostAddressesReachTheWindow := by
  unfold Obligations.HostAddressesReachTheWindow
  refine ⟨Nat.mul_mod_right _ _, fun s off n v => ?_, fun s addr n v h => ?_⟩
  · simp only [hostRead, hostWrite, hostOffset_base_add]
    exact ⟨rfl, rfl⟩
  · simp only [hostRead, hostWrite, hostOffset_outside h, and_self]

end Sys2Proof.Machine
end
